-- ==== Sys2Proof/Word.lean ====
section
/-! DEFINITION. The two word sizes of the engine and the spec's narrowing primitive `u16`
(spec/00_scope.md section 4). -/

namespace Sys2Proof

/-- A byte of the binary program format (00_scope.md section 4: "A byte is 8 bits"). -/
abbrev Byte := BitVec 8

/-- A cell value, a cell index or an operand: an unsigned 16-bit integer (00_scope.md R3). -/
abbrev Word := BitVec 16

/-- `u16(x)` = `x mod 65536`, taken in 0..65535 (00_scope.md section 4). -/
def u16 (x : Int) : Word := BitVec.ofInt 16 x

end Sys2Proof
end

