-- ==== Sys2Proof/Syntax.lean ====
section
/-! DEFINITION. Operands, the 21 instruction variants, Programs, and the tokens of the output sink
(spec/10_state.md R21 to R23, R33; spec/30_encoding.md R58). -/

namespace Sys2Proof

/-- An operand: a literal 16-bit constant, or the index of a memory cell read when the instruction
executes (10_state.md R21). Every 16-bit value is legal in both modes (30_encoding.md R73). -/
inductive Value where
  | literal (k : Word)
  | address (a : Word)
  deriving DecidableEq, Repr

/-- The closed set of 21 variants (00_scope.md R1, 10_state.md R22), under the mnemonics of
30_encoding.md R58 and in opcode order. -/
inductive Instr where
  /-- Output, 0x00. -/
  | out
  /-- CharacterOutput, 0x01. -/
  | cut
  /-- CharacterInput, 0x02. -/
  | cin
  /-- Dump, 0x03. -/
  | dmp
  /-- Return, 0x04. -/
  | rtn
  /-- SetAddress, 0x05. -/
  | sea (op : Value)
  /-- SetValue, 0x06. -/
  | set (op : Value)
  /-- Add, 0x07. -/
  | add (op : Value)
  /-- Subtract, 0x08. -/
  | sub (op : Value)
  /-- Multiply, 0x09. -/
  | mul (op : Value)
  /-- Divide, 0x0A. -/
  | div (op : Value)
  /-- Label, 0x0B. -/
  | lab (op : Value)
  /-- Compare, 0x0C. -/
  | ceq (op : Value)
  /-- GreaterThan, 0x0D. -/
  | gtn (op : Value)
  /-- LessThan, 0x0E. -/
  | ltn (op : Value)
  /-- GreaterThanEqual, 0x0F. -/
  | gte (op : Value)
  /-- LessThanEqual, 0x10. -/
  | lte (op : Value)
  /-- BranchIfNotEqual, 0x11. -/
  | bne (op : Value)
  /-- BranchIfEqual, 0x12. -/
  | beq (op : Value)
  /-- Jump, 0x13. -/
  | jmp (op : Value)
  /-- Exit, 0x14. -/
  | ext (op : Value)
  deriving DecidableEq, Repr

/-- A Program: an ordered, index-addressable sequence of instructions (10_state.md R23). -/
abbrev Program := List Instr

/-- The operand of a value-carrying variant, none for the five value-less ones (10_state.md R22). -/
def Instr.operand : Instr → Option Value
  | .out | .cut | .cin | .dmp | .rtn => none
  | .sea op | .set op | .add op | .sub op | .mul op | .div op | .lab op | .ceq op | .gtn op
  | .ltn op | .gte op | .lte op | .bne op | .beq op | .jmp op | .ext op => some op

/-- A variant as its mnemonic or opcode names it, before its operand is known. -/
inductive Shape where
  /-- A value-less variant. -/
  | plain (i : Instr)
  /-- A value-carrying variant, waiting for its one operand. -/
  | carrying (mk : Value → Instr)

/-- One token of the output sink (10_state.md R33). A `Char` of Lean is exactly a Unicode scalar
value, 0..0xD7FF or 0xE000..0x10FFFF. -/
inductive OutToken where
  /-- `Num(v)`, emitted by OUT. -/
  | num (v : Word)
  /-- `Char(c)`, emitted by CUT and by the echo of CIN. -/
  | char (c : Char)
  deriving DecidableEq, Repr

end Sys2Proof
end

