-- ==== Sys2Proof/Config.lean ====
section
/-! DEFINITION. The implementation parameters of spec/00_scope.md section 3. The fixed ones are
named constants; the OPEN ones are constants without a body, so that a claim holds whatever they
are (logs 6 to 9). -/

namespace Sys2Proof.Config

/-- `MEM_CELLS`: the number of data-memory cells (10_state.md R15). -/
def memCells : Nat := 65536

/-- `ADDR_REG`: the cell that is the address register (10_state.md R16). -/
def addrReg : Word := 0xFFFE#16

/-- `FLAG_CELL`: the cell that is the comparison flag (10_state.md R17). -/
def flagCell : Word := 0xFFFD#16

/-- `MODE_ADDRESS_ENC`: the mode byte the encoder emits for Address (30_encoding.md R70). -/
def modeAddressEnc : Byte := 0x10#8

/-- `OPCODE_COUNT`: opcodes 0x00 to 0x14 (30_encoding.md R57). -/
def opcodeCount : Nat := 21

/-- A finite `CALL_STACK_DEPTH` less one, or none for an unbounded stack. OPEN (92_eei_decisions.md
D13, log 7): no value is chosen. -/
opaque callStackExtra : Option Nat

/-- `CALL_STACK_DEPTH`: a finite positive number, or none for unbounded (10_state.md R29). -/
def callStackDepth : Option Nat := callStackExtra.map (· + 1)

/-- `PROGRAM_CAPACITY`: the maximum Program length. OPEN (92_eei_decisions.md D14, log 8). -/
opaque programCapacity : Nat

/-- How many bits `PC_BITS` has above the least that the capacity needs. OPEN (D14, log 8). -/
opaque pcSpareBits : Nat

/-- `PC_BITS`: a width with `2^PC_BITS > PROGRAM_CAPACITY` (10_state.md R24, D14). -/
def pcBits : Nat := Nat.log2 programCapacity + 1 + pcSpareBits

/-- What CIN stores for a character above U+FFFF. OPEN (92_eei_decisions.md D8, log 6). -/
opaque cinWide : Char → Word

/-- `cinStore`: the identity on 0x0000 to 0xFFFF, OPEN above (41_io.md R107, D8). -/
def cinStore (c : Char) : Word :=
  if c.toNat ≤ 0xFFFF then BitVec.ofNat 16 c.toNat else cinWide c

/-- `OUTPUT_RENDER`: how the host renders the output sink's tokens. OPEN (92_eei_decisions.md D10,
log 9). No step depends on it. -/
opaque outputRender : List OutToken → List Char

end Sys2Proof.Config
end

