-- ==== Sys2Proof/WellFormed.lean ====
section
/-! DEFINITION. The checks on raw data at the engine's edges. An `Instr` needs no check of its own:
its type holds exactly one of the 21 variants with an operand of 16 bits where R59 gives it one, and
every such operand is legal (spec/30_encoding.md R59, R73). What can be ill-formed is a raw opcode, a
record's length, a non-canonical record, and a Program longer than the capacity. -/

namespace Sys2Proof

/-- The opcode byte names one of the 21 variants (30_encoding.md R57, R73). -/
def knownOpcode (op : Byte) : Bool := op.toNat < Config.opcodeCount

/-- The opcode byte is followed by an operand: every one but 0x00 to 0x04, the illegal ones
included (30_encoding.md R59). -/
def takesOperand (op : Byte) : Bool := 0x04 < op.toNat

/-- The length in bytes of the record that has this opcode byte (30_encoding.md R63). -/
def recordLength (op : Byte) : Nat := if takesOperand op then 4 else 2

/-- The mode byte is the one the encoder writes for some record with this opcode byte: 0x00 in
format F0, 0x00 or 0x10 in format F1 (30_encoding.md R71). -/
def canonicalMode (mode op : Byte) : Bool :=
  mode == 0x00#8 || (takesOperand op && mode == Config.modeAddressEnc)

/-- A byte string is one whole record of a known variant (30_encoding.md R55, R57, R63). -/
def Record.wellFormed : List Byte → Bool
  | [_, op] => knownOpcode op && !takesOperand op
  | [_, op, _, _] => knownOpcode op && takesOperand op
  | _ => false

/-- A stream is a sequence of whole records, each with a canonical mode byte (30_encoding.md R71). -/
def Stream.canonical : List Byte → Bool
  | [] => true
  | [_] => false
  | mode :: op :: rest =>
    canonicalMode mode op &&
      (if takesOperand op then
        match rest with
        | _ :: _ :: rest' => Stream.canonical rest'
        | _ => false
      else Stream.canonical rest)

/-- The Program is no longer than the given capacity (30_encoding.md R69). -/
def Program.fits (capacity : Nat) (p : Program) : Bool := p.length ≤ capacity

end Sys2Proof
end

