-- ==== Sys2Proof/Decode.lean ====
section
/-! DEFINITION. The binary format: the decoder, total on any bytes and refusing by name, then the
encoder, its reference inverse (spec/30_encoding.md sections 1 to 6). -/

namespace Sys2Proof

/-- `CodecError`: why a byte stream is no Program (60_exceptions.md R140, R142). -/
inductive CodecError where
  /-- An opcode byte in 0x15 to 0xFF; records it and the record's byte offset (30_encoding.md R65). -/
  | unknownOpcode (opcode : Byte) (offset : Nat)
  /-- The stream ends inside a record; records the record's byte offset (30_encoding.md R66). -/
  | truncatedStream (offset : Nat)
  deriving DecidableEq, Repr

/-- The variant of an opcode byte in 0x00 to 0x04 (30_encoding.md R58, R59). -/
def valueLess (op : Byte) : Option Instr :=
  match op.toNat with
  | 0x00 => some .out
  | 0x01 => some .cut
  | 0x02 => some .cin
  | 0x03 => some .dmp
  | 0x04 => some .rtn
  | _ => none

/-- The variant of an opcode byte in 0x05 to 0x14 (30_encoding.md R58, R59). -/
def valueCarrying (op : Byte) : Option (Value → Instr) :=
  match op.toNat with
  | 0x05 => some .sea
  | 0x06 => some .set
  | 0x07 => some .add
  | 0x08 => some .sub
  | 0x09 => some .mul
  | 0x0A => some .div
  | 0x0B => some .lab
  | 0x0C => some .ceq
  | 0x0D => some .gtn
  | 0x0E => some .ltn
  | 0x0F => some .gte
  | 0x10 => some .lte
  | 0x11 => some .bne
  | 0x12 => some .beq
  | 0x13 => some .jmp
  | 0x14 => some .ext
  | _ => none

/-- The 16-bit operand value, high byte first (30_encoding.md R60). -/
def valueOf (hi lo : Byte) : Word := BitVec.ofNat 16 (hi.toNat * 256 + lo.toNat)

/-- The operand of an F1 record: Literal for mode byte 0x00, Address for every other (30_encoding.md
R61). -/
def operandOf (mode hi lo : Byte) : Value :=
  if mode = 0x00#8 then .literal (valueOf hi lo) else .address (valueOf hi lo)

/-- The decoder from byte offset `off` on (30_encoding.md R64). The mode byte of an F0 record is
ignored (R62), and a short value is reported before an unknown opcode (R68). -/
def decodeFrom (off : Nat) : List Byte → Except CodecError Program
  | [] => .ok []
  | [_] => .error (.truncatedStream off)
  | mode :: op :: rest =>
    match valueLess op with
    | some i => (decodeFrom (off + 2) rest).map (i :: ·)
    | none =>
      match rest with
      | hi :: lo :: rest' =>
        match valueCarrying op with
        | some mk => (decodeFrom (off + 4) rest').map (mk (operandOf mode hi lo) :: ·)
        | none => .error (.unknownOpcode op off)
      | _ => .error (.truncatedStream off)

/-- `decode(B)`: a byte stream to a Program, or a codec error (30_encoding.md R64). -/
def decodeProgram (bytes : List Byte) : Except CodecError Program := decodeFrom 0 bytes

/-- The `n` low bytes of `w`, most significant first: a record's bytes read as one big-endian number
(30_encoding.md R55). -/
def bytesBigEndian (w : Nat) : Nat → List Byte
  | 0 => []
  | n + 1 => BitVec.ofNat 8 (w / 256 ^ n) :: bytesBigEndian w n

/-- The single instruction a byte string decodes to, if it is exactly one record. -/
def decodeSingle (bytes : List Byte) : Option Instr :=
  match decodeProgram bytes with
  | .ok [i] => some i
  | _ => none

/-- The bytes of one record given as the opcode table numbers its bits: the record word is the bytes
read as one big-endian number, byte 0 most significant (30_encoding.md R55, log 11). Bytes the table
gives no bits are 0. -/
def tableWordBytes (nbits w : Nat) : List Byte :=
  let given := bytesBigEndian w (nbits / 8)
  match given with
  | [_, op] => if takesOperand op then given ++ [0x00#8, 0x00#8] else given
  | _ => given

/-- The instruction the decoder reads from a table word; none where it refuses. -/
def decodeTableWord (nbits w : Nat) : Option Instr := decodeSingle (tableWordBytes nbits w)

/-- The opcode byte of a variant (30_encoding.md R58). -/
def Instr.opcode : Instr → Byte
  | .out => 0x00#8
  | .cut => 0x01#8
  | .cin => 0x02#8
  | .dmp => 0x03#8
  | .rtn => 0x04#8
  | .sea _ => 0x05#8
  | .set _ => 0x06#8
  | .add _ => 0x07#8
  | .sub _ => 0x08#8
  | .mul _ => 0x09#8
  | .div _ => 0x0A#8
  | .lab _ => 0x0B#8
  | .ceq _ => 0x0C#8
  | .gtn _ => 0x0D#8
  | .ltn _ => 0x0E#8
  | .gte _ => 0x0F#8
  | .lte _ => 0x10#8
  | .bne _ => 0x11#8
  | .beq _ => 0x12#8
  | .jmp _ => 0x13#8
  | .ext _ => 0x14#8

/-- The mode byte the encoder writes for an operand (30_encoding.md R70). -/
def Value.modeByte : Value → Byte
  | .literal _ => 0x00#8
  | .address _ => Config.modeAddressEnc

/-- The 16 bits an operand holds, in either mode. -/
def Value.bits : Value → Word
  | .literal k => k
  | .address a => a

/-- `value[15:8]` (30_encoding.md R70). -/
def hiByte (w : Word) : Byte := BitVec.ofNat 8 (w.toNat / 256)

/-- `value[7:0]` (30_encoding.md R70). -/
def loByte (w : Word) : Byte := BitVec.ofNat 8 w.toNat

/-- The one record of an instruction (30_encoding.md R70). -/
def encode (i : Instr) : List Byte :=
  match i.operand with
  | none => [0x00#8, i.opcode]
  | some op => [op.modeByte, i.opcode, hiByte op.bits, loByte op.bits]

/-- `encode(P)`: one record per instruction, in order (30_encoding.md R70). -/
def encodeProgram : Program → List Byte
  | [] => []
  | i :: rest => encode i ++ encodeProgram rest

end Sys2Proof
end

