-- ==== Sys2Proof/Machine/State.lean ====
section
/-! DEFINITION. The state of the engine as plain data: data memory, Program, instruction pointer,
label table, call stack, run status and ports (spec/10_state.md R15 to R39), and its value at reset
(R38). -/

namespace Sys2Proof.Machine

/-- `RuntimeError` and its info (60_exceptions.md R142). -/
inductive RuntimeError where
  /-- BNE, BEQ or JMP to a key that the label table lacks (60_exceptions.md R143). -/
  | undeclaredLabel (k : Word)
  /-- RTN with an empty call stack (60_exceptions.md R144). -/
  | emptyCallStack
  /-- CUT of a value that is no Unicode scalar value (60_exceptions.md R145). -/
  | invalidCharacter (v : Word)
  /-- DIV by 0 (60_exceptions.md R146). -/
  | divisionByZero
  /-- JMP with a full call stack (60_exceptions.md R147). -/
  | callStackOverflow
  deriving DecidableEq, Repr

/-- `LexError`, each with the source line it arose on (60_exceptions.md R142, log 30). -/
inductive LexError where
  /-- Token 0 is no mnemonic (30_encoding.md R77). -/
  | unknownMnemonic (line : List Char)
  /-- An operand that starts with neither `0x` nor `0b` (30_encoding.md R78). -/
  | unknownNumberFormat (line : List Char)
  /-- A value-carrying mnemonic with no second token (30_encoding.md R80). -/
  | missingOperand (line : List Char)
  /-- Listed by the source and never raised (30_encoding.md R83). -/
  | noTokens (line : List Char)
  /-- Empty or bad digits, or a value above 0xFFFF (30_encoding.md R79). -/
  | invalidNumber (line : List Char)
  deriving DecidableEq, Repr

/-- Why a run failed to load (60_exceptions.md R140, R142). -/
inductive LoadError where
  /-- The decoder's error. -/
  | codec (e : CodecError)
  /-- The Program is longer than `PROGRAM_CAPACITY`; records its length (30_encoding.md R69). -/
  | programTooLarge (length : Nat)
  /-- The assembler's error (30_encoding.md R84). -/
  | lex (e : LexError)
  deriving DecidableEq, Repr

/-- The run status (10_state.md R32). -/
inductive Status where
  | running
  | halted (c : Word)
  | faulted (e : RuntimeError)
  deriving DecidableEq, Repr

/-- What the host puts at the program-load port: a byte stream (10_state.md R37), or a text that the
assembler turns into the same Program (40_engine.md R90). -/
inductive Source where
  | binary (bytes : List Byte)
  | text (chars : List Char)
  deriving DecidableEq, Repr

/-- The load phase of a run (40_engine.md R90): the model's own field (log 4). -/
inductive Loader where
  /-- A source waits at the port; the next step loads it. -/
  | pending (src : Source)
  /-- The Program is loaded; the main loop runs. -/
  | loaded
  /-- The load failed; nothing executes (30_encoding.md R69). -/
  | failed (e : LoadError)
  deriving DecidableEq, Repr

/-- Data memory: the cells that differ from what an unlisted cell reads as, by rising index
(10_state.md R15, log 1). The unit is the 16-bit cell, since no instruction reaches a byte of one
(20_memory.md R40). -/
abbrev Memory := List (Nat × Word)

/-- What an unlisted cell reads as: memory is zero-initialised (10_state.md R38). -/
def Memory.unlisted : Word := 0#16

/-- The one canonical form: indices below 65,536 and strictly rising, no entry equal to what an
unlisted cell reads as. -/
def Memory.wf (m : Memory) : Bool :=
  m.all (fun e => e.1 < Config.memCells && e.2 != Memory.unlisted) &&
    (m.map Prod.fst).Pairwise (· < ·)

/-- The label table: a partial map from 16-bit keys to Program indices, by rising key
(10_state.md R26). -/
abbrev LabelTable := List (Nat × Nat)

/-- One token of the diagnostic sink (10_state.md R35). -/
inductive DiagToken where
  /-- `Dump(s)`: the whole content of data memory, held in its canonical form; `DiagToken.values`
  is the 65,536 values in index order (log 10). -/
  | dump (cells : Memory)
  deriving DecidableEq, Repr

/-- The machine's state (10_state.md R39: "The engine has no other state"). AR and FLAG are cells of
`mem` (R18). -/
structure State where
  /-- Data memory (10_state.md R15). -/
  mem : Memory
  /-- The Program `P` (10_state.md R23). -/
  program : Program
  /-- The instruction pointer, a Program index (10_state.md R24). -/
  pc : Nat
  /-- The label table `L` (10_state.md R26). -/
  labels : LabelTable
  /-- The call stack `CS`, its top first (10_state.md R28). -/
  callStack : List Nat
  /-- The run status (10_state.md R32). -/
  status : Status
  /-- The output sink, oldest token first (10_state.md R33). -/
  output : List OutToken
  /-- The diagnostic sink, oldest token first (10_state.md R35). -/
  diagnostic : List DiagToken
  /-- The characters the host has supplied and CIN has not taken, the next one first (10_state.md
  R34, log 3). -/
  input : List Char
  /-- The program-load port and load phase (10_state.md R37, log 4). -/
  loader : Loader
  deriving DecidableEq, Repr

/-- The state right after reset, the start of a run (10_state.md R38, 70_reset_and_hazards.md R161),
with no Program loaded and no character supplied (logs 3 to 5). -/
def State.reset : State where
  mem := []
  program := []
  pc := 0
  labels := []
  callStack := []
  status := .running
  output := []
  diagnostic := []
  input := []
  loader := .loaded

/-- How one execution of an instruction ends (40_engine.md R97). -/
inductive Ending where
  /-- `next`: the pointer advances by one. -/
  | next
  /-- `goto(t)`: the pointer becomes `t`. -/
  | goto (t : Nat)
  /-- `return(r)`: the pointer becomes `r + 1`. -/
  | ret (r : Nat)
  /-- `halt(c)`: the run ends with exit code `c`. -/
  | halt (c : Word)
  /-- `raise E(info)`: the run ends with a runtime error. -/
  | raise (e : RuntimeError)
  /-- `wait`: no state changes and the instruction is tried again. -/
  | wait
  deriving DecidableEq, Repr

/-- What the run-result port reports (10_state.md R36). -/
inductive RunResult where
  /-- `Exit(c)`. -/
  | exit (c : Word)
  /-- `RuntimeError(code, info)`: the cause code of 60_exceptions.md R142 and the error with its
  info. -/
  | runtimeError (code : Byte) (e : RuntimeError)
  /-- `LoadError(e)`: the code and the error. -/
  | loadError (code : Byte) (e : LoadError)
  deriving DecidableEq, Repr

/-- Reasons the model stops instead of answering a next state: NONE. Every runtime error of the spec
is a next state with status Faulted (60_exceptions.md R141, log 2), no access faults (00_scope.md R4),
and no instruction is undefined (30_encoding.md R75). Safe: the type has no value, so no step can end
this way. -/
inductive Fault where
  deriving DecidableEq, Repr

/-- Reasons the model gives no meaning. -/
inductive Refusal where
  /-- Raised by an arm of `exec` for an instruction with no meaning yet. Safe: nothing can be proved
  of a next state. No arm raises it now. -/
  | notModelled (mnemonic : String)
  deriving DecidableEq, Repr

/-- The answer of a step. -/
abbrev Answer := Host.Outcome State Fault Refusal

end Sys2Proof.Machine
end

