-- ==== Sys2Proof/Machine/Ops.lean ====
section
/-! DEFINITION. The named operations the meanings are written over: reading and writing a cell, the
label table, the call stack, the ports, and how an instruction ends. Raising a runtime error is the
one place an exception is taken (`State.raise`); the spec has no handler and no return from an error
(spec/60_exceptions.md R151), so there is no return beside it. -/

namespace Sys2Proof.Machine

/-! ### Sorted tables (data memory and the label table) -/

/-- The entry of key `k`, if there is one. -/
def Table.find {β : Type} (k : Nat) : List (Nat × β) → Option β
  | [] => none
  | e :: rest => if e.1 = k then some e.2 else Table.find k rest

/-- The table without key `k`. -/
def Table.erase {β : Type} (k : Nat) : List (Nat × β) → List (Nat × β)
  | [] => []
  | e :: rest => if e.1 = k then Table.erase k rest else e :: Table.erase k rest

/-- The table with `(k, v)` put before the first greater key. -/
def Table.insert {β : Type} (k : Nat) (v : β) : List (Nat × β) → List (Nat × β)
  | [] => [(k, v)]
  | e :: rest => if k < e.1 then (k, v) :: e :: rest else e :: Table.insert k v rest

/-- The table that maps `k` to `v` and every other key as before. -/
def Table.set {β : Type} (k : Nat) (v : β) (t : List (Nat × β)) : List (Nat × β) :=
  Table.insert k v (Table.erase k t)

/-! ### Data memory -/

/-- The content of cell `a` (00_scope.md R4). -/
def Memory.read (m : Memory) (a : Word) : Word :=
  (Table.find a.toNat m).getD Memory.unlisted

/-- Memory with cell `a` set to `v`; a cell that gets the value an unlisted one reads as leaves the
list (00_scope.md R4). -/
def Memory.write (m : Memory) (a v : Word) : Memory :=
  if v = Memory.unlisted then Table.erase a.toNat m else Table.set a.toNat v m

/-- `MemRead(a, 1)`: it cannot fail and changes nothing (00_scope.md R4). -/
def State.readCell (s : State) (a : Word) : Word := Memory.read s.mem a

/-- `MemWrite(a, 1, v)`: it cannot fail and changes no other cell (00_scope.md R4). -/
def State.writeCell (s : State) (a v : Word) : State := { s with mem := Memory.write s.mem a v }

/-- `AR`: the address register, cell 0xFFFE (00_scope.md R5, 10_state.md R16). -/
def State.ar (s : State) : Word := s.readCell Config.addrReg

/-- `FLAG`: the comparison flag, cell 0xFFFD (00_scope.md R5, 10_state.md R17). -/
def State.flag (s : State) : Word := s.readCell Config.flagCell

/-- Every cell of a memory in index order: 65,536 values (10_state.md R35). -/
def Memory.values (m : Memory) : List Word :=
  (List.range Config.memCells).map fun n => Memory.read m (BitVec.ofNat 16 n)

/-- The content of a Dump token: the whole of data memory in index order (41_io.md R108). -/
def DiagToken.values : DiagToken → List Word
  | .dump cells => Memory.values cells

/-! ### Label table -/

/-- The key a Label instruction declares: only `Label(Literal(k))` declares one (40_engine.md R91,
R93). -/
def declaredLabel : Instr → Option Word
  | .lab (.literal k) => some k
  | .lab (.address _) => none
  | .out | .cut | .cin | .dmp | .rtn => none
  | .sea _ | .set _ | .add _ | .sub _ | .mul _ | .div _ | .ceq _ | .gtn _ | .ltn _ | .gte _
  | .lte _ | .bne _ | .beq _ | .jmp _ | .ext _ => none

/-- The pre-pass from Program index `i` on: a later index overwrites an earlier one (40_engine.md
R91, R92). -/
def scanLabels (i : Nat) (table : LabelTable) : Program → LabelTable
  | [] => table
  | instr :: rest =>
    match declaredLabel instr with
    | some k => scanLabels (i + 1) (Table.set k.toNat i table) rest
    | none => scanLabels (i + 1) table rest

/-- The label table of a Program (40_engine.md R91). -/
def labelTable (p : Program) : LabelTable := scanLabels 0 [] p

/-- `L[k]`, or none when `k` is not in `L` (00_scope.md R7). -/
def State.labelIndex (s : State) (k : Word) : Option Nat := Table.find k.toNat s.labels

/-! ### Call stack -/

/-- `Push(CS, i)` (00_scope.md R7). -/
def State.push (s : State) (i : Nat) : State := { s with callStack := i :: s.callStack }

/-- The state after `Pop(CS)` took the top entry (00_scope.md R7). -/
def State.popped (s : State) : State := { s with callStack := s.callStack.tail }

/-- `CALL_STACK_DEPTH` is finite and `|CS| = CALL_STACK_DEPTH` (44_control.md R134). The depth is
positive (10_state.md R29), so an empty stack is never full. -/
def State.callStackFull (s : State) : Bool :=
  match s.callStack with
  | [] => false
  | _ :: _ => Config.callStackDepth == some s.callStack.length

/-! ### Ports -/

/-- Appends a token to the output sink (10_state.md R33). -/
def State.emit (s : State) (t : OutToken) : State := { s with output := s.output ++ [t] }

/-- Appends a token to the diagnostic sink (10_state.md R35). -/
def State.emitDiag (s : State) (t : DiagToken) : State :=
  { s with diagnostic := s.diagnostic ++ [t] }

/-- The state after CIN took the next character of the input source (10_state.md R34). -/
def State.inputTaken (s : State) : State := { s with input := s.input.tail }

/-- The host supplies one character (10_state.md R34): it changes the input source only. -/
def State.supply (s : State) (c : Char) : State := { s with input := s.input ++ [c] }

/-- A 16-bit value is a Unicode scalar value: it is not a surrogate, 0xD800 to 0xDFFF (41_io.md
R106, log 24). -/
def isScalarValue (v : Word) : Bool := !(0xD800 ≤ v.toNat && v.toNat ≤ 0xDFFF)

/-- The character with a 16-bit code point. -/
def charOf (v : Word) : Char := Char.ofNat v.toNat

/-! ### How an instruction ends -/

/-- Sets the instruction pointer (00_scope.md R7). -/
def State.setPc (s : State) (t : Nat) : State := { s with pc := t }

/-- `halt(c)`: the status becomes `Halted(c)`, the pointer stays (40_engine.md R97). -/
def State.halt (s : State) (c : Word) : State := { s with status := .halted c }

/-- Taking a runtime error: the status becomes `Faulted(E, info)`, the pointer stays at the failing
instruction, nothing is saved and no handler is entered (60_exceptions.md R141, R148, R151). -/
def State.raise (s : State) (e : RuntimeError) : State := { s with status := .faulted e }

/-- Ends an instruction that began in `before` and whose effects give `effects`: commits the effects
and moves the pointer, or discards them (40_engine.md R97, R104). -/
def State.finish (before effects : State) : Ending → Answer
  | .next => .next (effects.setPc (before.pc + 1))
  | .goto t => .next (effects.setPc t)
  | .ret r => .next (effects.setPc (r + 1))
  | .halt c => .next (effects.halt c)
  | .raise e => .next (before.raise e)
  | .wait => .next before

/-! ### Run result -/

/-- The code of a runtime error (60_exceptions.md R142). -/
def RuntimeError.code : RuntimeError → Byte
  | .undeclaredLabel _ => 0x01#8
  | .emptyCallStack => 0x02#8
  | .invalidCharacter _ => 0x03#8
  | .divisionByZero => 0x04#8
  | .callStackOverflow => 0x05#8

/-- The code of a load error (60_exceptions.md R142). -/
def LoadError.code : LoadError → Byte
  | .codec (.unknownOpcode _ _) => 0x10#8
  | .codec (.truncatedStream _) => 0x11#8
  | .programTooLarge _ => 0x12#8
  | .lex (.unknownMnemonic _) => 0x20#8
  | .lex (.unknownNumberFormat _) => 0x21#8
  | .lex (.missingOperand _) => 0x22#8
  | .lex (.noTokens _) => 0x23#8
  | .lex (.invalidNumber _) => 0x24#8

/-- What the run-result port reports: nothing until the run has ended (10_state.md R36). -/
def State.result (s : State) : Option RunResult :=
  match s.loader with
  | .pending _ => none
  | .failed e => some (.loadError e.code e)
  | .loaded =>
    match s.status with
    | .running => none
    | .halted c => some (.exit c)
    | .faulted e => some (.runtimeError e.code e)

/-- The output sink's tokens as the host renders them; the rendering is OPEN (10_state.md R33,
log 9). -/
def State.renderedOutput (s : State) : List Char := Config.outputRender s.output

end Sys2Proof.Machine
end

