-- ==== Sys2Proof/Machine/Assembler.lean ====
section
/-! DEFINITION. The assembler's text syntax (spec/30_encoding.md R76 to R85): text to Program, and the
canonical text of an instruction. Toolchain, not hardware (spec/00_scope.md section 2); a text program
reaches the engine only as the Program made here. -/

namespace Sys2Proof.Machine

/-- Whitespace between tokens: tab, line feed, vertical tab, form feed, carriage return, space
(log 29). -/
def isBlank (c : Char) : Bool :=
  c.toNat == 0x20 || (0x09 ≤ c.toNat && c.toNat ≤ 0x0D)

/-- The text up to the first `;` (30_encoding.md R76). -/
def stripComment : List Char → List Char
  | [] => []
  | c :: rest => if c = ';' then [] else c :: stripComment rest

/-- The lines of a text, split at line feeds; `line` holds the characters of the current one. -/
def splitLines (line : List Char) : List Char → List (List Char)
  | [] => [line]
  | c :: rest =>
    if c = '\n' then line :: splitLines [] rest else splitLines (line ++ [c]) rest

/-- A finished token goes in front; an empty one does not count. -/
def flushToken (tok : List Char) (rest : List (List Char)) : List (List Char) :=
  match tok with
  | [] => rest
  | _ :: _ => tok :: rest

/-- The tokens of a line, split on whitespace; `tok` holds the characters of the current one
(30_encoding.md R77). -/
def splitTokens (tok : List Char) : List Char → List (List Char)
  | [] => flushToken tok []
  | c :: rest =>
    if isBlank c then flushToken tok (splitTokens [] rest) else splitTokens (tok ++ [c]) rest

/-- The 21 mnemonics (30_encoding.md R58, R77, R85). -/
def mnemonicTable : List (List Char × Shape) :=
  [(['O', 'U', 'T'], .plain .out), (['C', 'U', 'T'], .plain .cut), (['C', 'I', 'N'], .plain .cin),
   (['D', 'M', 'P'], .plain .dmp), (['R', 'T', 'N'], .plain .rtn),
   (['S', 'E', 'A'], .carrying .sea), (['S', 'E', 'T'], .carrying .set),
   (['A', 'D', 'D'], .carrying .add), (['S', 'U', 'B'], .carrying .sub),
   (['M', 'U', 'L'], .carrying .mul), (['D', 'I', 'V'], .carrying .div),
   (['L', 'A', 'B'], .carrying .lab), (['C', 'E', 'Q'], .carrying .ceq),
   (['G', 'T', 'N'], .carrying .gtn), (['L', 'T', 'N'], .carrying .ltn),
   (['G', 'T', 'E'], .carrying .gte), (['L', 'T', 'E'], .carrying .lte),
   (['B', 'N', 'E'], .carrying .bne), (['B', 'E', 'Q'], .carrying .beq),
   (['J', 'M', 'P'], .carrying .jmp), (['E', 'X', 'T'], .carrying .ext)]

/-- The variant a token names, exactly and case-sensitively (30_encoding.md R77). -/
def findMnemonic (name : List Char) : List (List Char × Shape) → Option Shape
  | [] => none
  | e :: rest => if e.1 = name then some e.2 else findMnemonic name rest

/-- The value of a digit character in base 16, in either case (30_encoding.md R79). -/
def hexDigit (c : Char) : Option Nat :=
  if '0'.toNat ≤ c.toNat ∧ c.toNat ≤ '9'.toNat then some (c.toNat - '0'.toNat)
  else if 'A'.toNat ≤ c.toNat ∧ c.toNat ≤ 'F'.toNat then some (c.toNat - 'A'.toNat + 10)
  else if 'a'.toNat ≤ c.toNat ∧ c.toNat ≤ 'f'.toNat then some (c.toNat - 'a'.toNat + 10)
  else none

/-- The value of a digit character in the given base, none for a digit not in the base. -/
def digitIn (base : Nat) (c : Char) : Option Nat :=
  match hexDigit c with
  | some d => if d < base then some d else none
  | none => none

/-- The number a digit string stands for, `acc` being the value of the digits before it. -/
def digitsValue (base acc : Nat) : List Char → Option Nat
  | [] => some acc
  | c :: rest =>
    match digitIn base c with
    | some d => digitsValue base (acc * base + d) rest
    | none => none

/-- A 16-bit number: at least one digit, every digit in the base, the value at most 0xFFFF
(30_encoding.md R79). -/
def parseDigits (base : Nat) (digits : List Char) : Option Word :=
  match digits with
  | [] => none
  | _ :: _ =>
    match digitsValue base 0 digits with
    | some n => if n ≤ 0xFFFF then some (BitVec.ofNat 16 n) else none
    | none => none

/-- The number after an optional `*`: `0x` and hexadecimal digits, or `0b` and binary digits
(30_encoding.md R78). `line` is the source line, for the error. -/
def parseNumber (line : List Char) (tok : List Char) : Except LexError Word :=
  match tok with
  | '0' :: 'x' :: digits =>
    match parseDigits 16 digits with
    | some w => .ok w
    | none => .error (.invalidNumber line)
  | '0' :: 'b' :: digits =>
    match parseDigits 2 digits with
    | some w => .ok w
    | none => .error (.invalidNumber line)
  | _ => .error (.unknownNumberFormat line)

/-- An operand token: a leading `*` marks Address, none marks Literal (30_encoding.md R78). -/
def parseOperand (line : List Char) (tok : List Char) : Except LexError Value :=
  match tok with
  | '*' :: rest => (parseNumber line rest).map .address
  | _ => (parseNumber line tok).map .literal

/-- The instruction of a line's tokens. A value-less mnemonic ignores a second token, and every
mnemonic ignores a third and later ones (30_encoding.md R77 to R81). -/
def parseTokens (line : List Char) (name : List Char) (operands : List (List Char)) :
    Except LexError Instr :=
  match findMnemonic name mnemonicTable with
  | none => .error (.unknownMnemonic line)
  | some (.plain i) => .ok i
  | some (.carrying mk) =>
    match operands with
    | [] => .error (.missingOperand line)
    | tok :: _ => (parseOperand line tok).map mk

/-- One source line: no instruction when nothing is left of it without its comment, else exactly one
(30_encoding.md R76). -/
def assembleLine (line : List Char) : Except LexError (Option Instr) :=
  match splitTokens [] (stripComment line) with
  | [] => .ok none
  | name :: operands => (parseTokens line name operands).map some

/-- The Program of the lines, in order; the first failing line decides the error (30_encoding.md
R82, R84). -/
def assembleLines : List (List Char) → Except LexError Program
  | [] => .ok []
  | line :: rest =>
    match assembleLine line with
    | .error e => .error e
    | .ok none => assembleLines rest
    | .ok (some i) => (assembleLines rest).map (i :: ·)

/-- `lex(p)`: a text program to a Program, or a lexer error (30_encoding.md R76 to R84). -/
def assemble (text : List Char) : Except LexError Program := assembleLines (splitLines [] text)

/-! ### The canonical text of an instruction (30_encoding.md R85) -/

/-- The mnemonic of a variant (30_encoding.md R58). -/
def mnemonicOf : Instr → List Char
  | .out => ['O', 'U', 'T']
  | .cut => ['C', 'U', 'T']
  | .cin => ['C', 'I', 'N']
  | .dmp => ['D', 'M', 'P']
  | .rtn => ['R', 'T', 'N']
  | .sea _ => ['S', 'E', 'A']
  | .set _ => ['S', 'E', 'T']
  | .add _ => ['A', 'D', 'D']
  | .sub _ => ['S', 'U', 'B']
  | .mul _ => ['M', 'U', 'L']
  | .div _ => ['D', 'I', 'V']
  | .lab _ => ['L', 'A', 'B']
  | .ceq _ => ['C', 'E', 'Q']
  | .gtn _ => ['G', 'T', 'N']
  | .ltn _ => ['L', 'T', 'N']
  | .gte _ => ['G', 'T', 'E']
  | .lte _ => ['L', 'T', 'E']
  | .bne _ => ['B', 'N', 'E']
  | .beq _ => ['B', 'E', 'Q']
  | .jmp _ => ['J', 'M', 'P']
  | .ext _ => ['E', 'X', 'T']

/-- The hexadecimal digit of a number below 16. -/
def hexChar (n : Nat) : Char :=
  if n < 10 then Char.ofNat ('0'.toNat + n) else Char.ofNat ('A'.toNat + (n - 10))

/-- `0x` and four hexadecimal digits. -/
def hexText (w : Word) : List Char :=
  ['0', 'x', hexChar (w.toNat / 4096 % 16), hexChar (w.toNat / 256 % 16),
    hexChar (w.toNat / 16 % 16), hexChar (w.toNat % 16)]

/-- An operand's text; an Address is printed with `*` (30_encoding.md R85). -/
def operandText : Value → List Char
  | .literal k => hexText k
  | .address a => '*' :: hexText a

/-- The canonical disassembly form of an instruction (30_encoding.md R85). -/
def instrText (i : Instr) : List Char :=
  match i.operand with
  | none => mnemonicOf i
  | some op => mnemonicOf i ++ ' ' :: operandText op

/-- The canonical text of a Program: one line per instruction, each ended by a line feed. -/
def programText : Program → List Char
  | [] => []
  | i :: rest => instrText i ++ '\n' :: programText rest

end Sys2Proof.Machine
end

