-- ==== Sys2Proof/Machine/Loader.lean ====
section
/-! DEFINITION. The load phase of a run: source to Program, capacity check, label pre-pass, start
state (spec/30_encoding.md R69, spec/40_engine.md R90, spec/70_reset_and_hazards.md R162). -/

namespace Sys2Proof.Machine

/-- Decodes a byte stream, or assembles a text (40_engine.md R90). -/
def readSource : Source → Except LoadError Program
  | .binary bytes => (decodeProgram bytes).mapError .codec
  | .text chars => (assemble chars).mapError .lex

/-- The whole source is read first, and a Program over `PROGRAM_CAPACITY` is refused (30_encoding.md
R69). -/
def loadProgram (src : Source) : Except LoadError Program :=
  match readSource src with
  | .error e => .error e
  | .ok p => if Program.fits Config.programCapacity p then .ok p else .error (.programTooLarge p.length)

/-- The state at the start of a run of `p`: the reset state with `p` loaded and its label table built
(10_state.md R38). -/
def State.start (p : Program) : State :=
  { State.reset with program := p, labels := labelTable p }

/-- The load phase: a failure ends the run with nothing executed (30_encoding.md R69); else the run
starts, and only the characters the host has supplied are still there (70_reset_and_hazards.md R160,
R162). -/
def State.load (s : State) (src : Source) : State :=
  match loadProgram src with
  | .error e => { s with loader := .failed e }
  | .ok p => { State.start p with input := s.input }

/-- A new run, with `src` at the program-load port: nothing is carried over from an earlier run
(10_state.md R37, 70_reset_and_hazards.md R160). -/
def State.offer (src : Source) : State := { State.reset with loader := .pending src }

/-- The state with `i` as the instruction at the pointer, in a loaded and running engine. The label
table is the new Program's (40_engine.md R91, log 5). -/
def State.placeInstr (s : State) (i : Instr) : State :=
  let p := s.program.take s.pc ++ List.replicate (s.pc - s.program.length) i ++
    i :: s.program.drop (s.pc + 1)
  { s with program := p, labels := labelTable p, status := .running, loader := .loaded }

end Sys2Proof.Machine
end

