-- ==== Sys2Proof/Machine/Operands.lean ====
section
/-! DEFINITION. The operand forms: the two modes of a Value, the implicit target cell, and the label
operand of BNE, BEQ and JMP (spec/00_scope.md R5, R6; spec/44_control.md R136). -/

namespace Sys2Proof.Machine

/-- `Resolve(op)`: a literal yields itself, an address yields the content of that cell as memory
stands at the start of the instruction (00_scope.md R6, 40_engine.md R100). -/
def State.resolve (s : State) : Value → Word
  | .literal k => k
  | .address a => s.readCell a

/-- The content of the target cell, the cell whose index is `AR` (00_scope.md R5). -/
def State.targetValue (s : State) : Word := s.readCell s.ar

/-- Writes the target cell; the index is the `AR` of the instruction's start, also when the target is
the address register itself (40_engine.md R101). -/
def State.writeTarget (s : State) (v : Word) : State := s.writeCell s.ar v

/-- The label operand: the Program index of the resolved key, or UndeclaredLabel with the key
(44_control.md R136). -/
def State.resolveLabel (s : State) (op : Value) : Except RuntimeError Nat :=
  match s.labelIndex (s.resolve op) with
  | some t => .ok t
  | none => .error (.undeclaredLabel (s.resolve op))

/-- The shared shape of SET, ADD, SUB and MUL: the target cell receives a function of its content and
the resolved operand (42_data_arith.md R111 to R114). -/
def State.combineTarget (s : State) (f : Word → Word → Word) (op : Value) : Answer :=
  s.finish (s.writeTarget (f s.targetValue (s.resolve op))) .next

end Sys2Proof.Machine
end

