-- ==== Sys2Proof/Machine/Flags.lean ====
section
/-! DEFINITION. The comparison flag, which is the only flag, and the predicates that compute it
(spec/10_state.md R30, spec/43_compare.md R125). -/

namespace Sys2Proof.Machine

/-- `(x pred v) ? 1 : 0` (43_compare.md R125). -/
def flagOf (holds : Bool) : Word := if holds then 1#16 else 0#16

/-- `x = v` (43_compare.md R120). -/
def cmpEq (x v : Word) : Bool := x.toNat = v.toNat

/-- `x > v`, unsigned (43_compare.md R121). -/
def cmpGt (x v : Word) : Bool := x.toNat > v.toNat

/-- `x < v`, unsigned (43_compare.md R122). -/
def cmpLt (x v : Word) : Bool := x.toNat < v.toNat

/-- `x >= v`, unsigned (43_compare.md R123). -/
def cmpGe (x v : Word) : Bool := x.toNat ≥ v.toNat

/-- `x <= v`, unsigned (43_compare.md R124). -/
def cmpLe (x v : Word) : Bool := x.toNat ≤ v.toNat

/-- Writes the comparison flag with a predicate's result (43_compare.md R125). -/
def State.writeFlag (s : State) (holds : Bool) : State :=
  s.writeCell Config.flagCell (flagOf holds)

/-- BNE's condition: the flag is exactly 0 (44_control.md R132, log 23). -/
def State.flagClear (s : State) : Bool := s.flag == 0#16

/-- BEQ's condition: the flag is exactly 1 (44_control.md R133, log 23). -/
def State.flagSet (s : State) : Bool := s.flag == 1#16

/-- The compare law: the flag receives the predicate of the target cell's content and the resolved
operand (43_compare.md R125). -/
def State.compareTarget (s : State) (pred : Word → Word → Bool) (op : Value) : Answer :=
  s.finish (s.writeFlag (pred s.targetValue (s.resolve op))) .next

end Sys2Proof.Machine
end

