-- ==== Sys2Proof/Machine/Compare.lean ====
section
/-! DEFINITION. CEQ, GTN, LTN, GTE and LTE (spec/43_compare.md). -/

namespace Sys2Proof.Machine

/-- CEQ (43_compare.md R120). -/
def execCeq (op : Value) (s : State) : Answer := s.compareTarget cmpEq op

/-- GTN (43_compare.md R121). -/
def execGtn (op : Value) (s : State) : Answer := s.compareTarget cmpGt op

/-- LTN (43_compare.md R122). -/
def execLtn (op : Value) (s : State) : Answer := s.compareTarget cmpLt op

/-- GTE (43_compare.md R123). -/
def execGte (op : Value) (s : State) : Answer := s.compareTarget cmpGe op

/-- LTE (43_compare.md R124). -/
def execLte (op : Value) (s : State) : Answer := s.compareTarget cmpLe op

end Sys2Proof.Machine
end

