-- ==== Sys2Proof/Machine/Control.lean ====
section
/-! DEFINITION. RTN, LAB, BNE, BEQ, JMP and EXT (spec/44_control.md). -/

namespace Sys2Proof.Machine

/-- RTN: pops the index of the JMP that called and resumes after it, or raises EmptyCallStack
(44_control.md R130). -/
def execRtn (s : State) : Answer :=
  match s.callStack with
  | [] => s.finish s (.raise .emptyCallStack)
  | r :: _ => s.finish s.popped (.ret r)

/-- LAB: no effect when executed; its operand is not resolved (44_control.md R131). -/
def execLab (_op : Value) (s : State) : Answer := s.finish s .next

/-- The shared shape of BNE and BEQ: the label is looked up first, whether or not the branch is
taken (44_control.md R136). -/
def State.branchIf (s : State) (taken : Bool) (op : Value) : Answer :=
  match s.resolveLabel op with
  | .error e => s.finish s (.raise e)
  | .ok t => s.finish s (if taken then .goto t else .next)

/-- BNE: branches when the flag is exactly 0 (44_control.md R132). -/
def execBne (op : Value) (s : State) : Answer := s.branchIf s.flagClear op

/-- BEQ: branches when the flag is exactly 1 (44_control.md R133). -/
def execBeq (op : Value) (s : State) : Answer := s.branchIf s.flagSet op

/-- JMP, always a call: looks the label up, checks the stack's depth, pushes its own index and goes
to the label (44_control.md R134; the order of the two errors, 60_exceptions.md R149). -/
def execJmp (op : Value) (s : State) : Answer :=
  match s.resolveLabel op with
  | .error e => s.finish s (.raise e)
  | .ok t =>
    if s.callStackFull then s.finish s (.raise .callStackOverflow)
    else s.finish (s.push s.pc) (.goto t)

/-- EXT: ends the run with the resolved operand as exit code (44_control.md R135). -/
def execExt (op : Value) (s : State) : Answer := s.finish s (.halt (s.resolve op))

end Sys2Proof.Machine
end

