-- ==== Sys2Proof/Machine/Alu.lean ====
section
/-! DEFINITION. The ALU: unsigned 16-bit values, exact integer results kept modulo 65536, the target
cell's content on the left (spec/42_data_arith.md R116, log 13). -/

namespace Sys2Proof.Machine

/-- `u16(x + v)` (42_data_arith.md R112). -/
def aluAdd (x v : Word) : Word := u16 ((x.toNat : Int) + v.toNat)

/-- `u16(x - v)` (42_data_arith.md R113). -/
def aluSub (x v : Word) : Word := u16 ((x.toNat : Int) - v.toNat)

/-- `u16(x * v)` (42_data_arith.md R114). -/
def aluMul (x v : Word) : Word := u16 ((x.toNat : Int) * v.toNat)

/-- `x div v`, the unsigned quotient rounded toward zero, for `v` other than 0 (42_data_arith.md
R115). -/
def aluDiv (x v : Word) : Word := BitVec.ofNat 16 (x.toNat / v.toNat)

end Sys2Proof.Machine
end

