-- ==== Sys2Proof/Machine/DataArith.lean ====
section
/-! DEFINITION. SEA, SET, ADD, SUB, MUL and DIV (spec/42_data_arith.md). -/

namespace Sys2Proof.Machine

/-- SEA: the address register receives the resolved operand (42_data_arith.md R110). -/
def execSea (op : Value) (s : State) : Answer :=
  s.finish (s.writeCell Config.addrReg (s.resolve op)) .next

/-- SET: the target cell receives the resolved operand (42_data_arith.md R111). -/
def execSet (op : Value) (s : State) : Answer := s.combineTarget (fun _ v => v) op

/-- ADD (42_data_arith.md R112). -/
def execAdd (op : Value) (s : State) : Answer := s.combineTarget aluAdd op

/-- SUB: target minus operand (42_data_arith.md R113). -/
def execSub (op : Value) (s : State) : Answer := s.combineTarget aluSub op

/-- MUL (42_data_arith.md R114). -/
def execMul (op : Value) (s : State) : Answer := s.combineTarget aluMul op

/-- DIV: target divided by operand, or DivisionByZero (42_data_arith.md R115). -/
def execDiv (op : Value) (s : State) : Answer :=
  if s.resolve op = 0#16 then s.finish s (.raise .divisionByZero)
  else s.combineTarget aluDiv op

end Sys2Proof.Machine
end

