-- ==== Sys2Proof/Machine/InputOutput.lean ====
section
/-! DEFINITION. OUT, CUT, CIN and DMP (spec/41_io.md). -/

namespace Sys2Proof.Machine

/-- OUT: emits the target cell's content as a number (41_io.md R105). -/
def execOut (s : State) : Answer := s.finish (s.emit (.num s.targetValue)) .next

/-- CUT: emits the target cell's content as a character, or raises InvalidCharacter (41_io.md
R106). -/
def execCut (s : State) : Answer :=
  if isScalarValue s.targetValue then s.finish (s.emit (.char (charOf s.targetValue))) .next
  else s.finish s (.raise (.invalidCharacter s.targetValue))

/-- CIN: waits for a character, stores its code point in the target cell and echoes it (41_io.md
R107). -/
def execCin (s : State) : Answer :=
  match s.input with
  | [] => s.finish s .wait
  | c :: _ => s.finish ((s.inputTaken.writeTarget (Config.cinStore c)).emit (.char c)) .next

/-- DMP: emits a snapshot of the whole data memory (41_io.md R108). -/
def execDmp (s : State) : Answer := s.finish (s.emitDiag (.dump s.mem)) .next

end Sys2Proof.Machine
end

