-- ==== Sys2Proof/Machine/Dispatch.lean ====
section
/-! DEFINITION. The dispatch of the 21 variants, one arm each (spec/40_engine.md R96). -/

namespace Sys2Proof.Machine

def exec (i : Instr) (s : State) : Host.Outcome State Fault Refusal :=
  match i with
  | .out => Sys2Proof.Machine.execOut s
  | .cut => Sys2Proof.Machine.execCut s
  | .cin => Sys2Proof.Machine.execCin s
  | .dmp => Sys2Proof.Machine.execDmp s
  | .rtn => Sys2Proof.Machine.execRtn s
  | .sea op => Sys2Proof.Machine.execSea op s
  | .set op => Sys2Proof.Machine.execSet op s
  | .add op => Sys2Proof.Machine.execAdd op s
  | .sub op => Sys2Proof.Machine.execSub op s
  | .mul op => Sys2Proof.Machine.execMul op s
  | .div op => Sys2Proof.Machine.execDiv op s
  | .lab op => Sys2Proof.Machine.execLab op s
  | .ceq op => Sys2Proof.Machine.execCeq op s
  | .gtn op => Sys2Proof.Machine.execGtn op s
  | .ltn op => Sys2Proof.Machine.execLtn op s
  | .gte op => Sys2Proof.Machine.execGte op s
  | .lte op => Sys2Proof.Machine.execLte op s
  | .bne op => Sys2Proof.Machine.execBne op s
  | .beq op => Sys2Proof.Machine.execBeq op s
  | .jmp op => Sys2Proof.Machine.execJmp op s
  | .ext op => Sys2Proof.Machine.execExt op s

end Sys2Proof.Machine
end

