-- ==== Sys2Proof/Machine/Loop.lean ====
section
/-! DEFINITION. One iteration of the main loop (spec/40_engine.md R94 to R99, R104). -/

namespace Sys2Proof.Machine

/-- The instruction at the pointer, none at or past the end of the Program (40_engine.md R95,
R96). -/
def State.fetch (s : State) : Option Instr := s.program[s.pc]?

/-- One iteration: from a final status nothing changes (40_engine.md R99); at the end of the Program
the run halts with exit code 0 (R95); else the instruction at the pointer runs (R96). -/
def State.iterate (s : State) : Answer :=
  match s.status with
  | .halted _ => .next s
  | .faulted _ => .next s
  | .running =>
    match s.fetch with
    | none => .next (s.halt 0#16)
    | some i => exec i s

end Sys2Proof.Machine
end

