-- ==== Sys2Proof/Machine/Step.lean ====
section
/-! DEFINITION. One step of the machine: the load phase of a run, then one iteration of the main loop
a step (spec/40_engine.md R90, R104). -/

namespace Sys2Proof.Machine

/-- One step. A source at the program-load port is loaded before anything executes (40_engine.md R90);
a run that failed to load executes nothing (30_encoding.md R69); else one iteration of the main loop
(40_engine.md R104). -/
def step (s : State) : Host.Outcome State Fault Refusal :=
  match s.loader with
  | .pending src => .next (s.load src)
  | .failed _ => .next s
  | .loaded => s.iterate

/-- `s` with the table word's instruction at the pointer of a running engine, so that the next step
runs it. A word that no instruction has goes to the program-load port instead, where the next step
refuses it: an undecodable record never reaches execution (30_encoding.md R73, log 5). -/
def State.withFetchWord (s : State) (nbits w : Nat) : State :=
  match decodeTableWord nbits w with
  | some i => s.placeInstr i
  | none => { s with loader := .pending (.binary (tableWordBytes nbits w)) }

end Sys2Proof.Machine
end

