-- ==== Sys2Proof/Safety.lean ====
section
/-! DEFINITION. What counts as a good state and a safe run, and the vocabulary the statements use:
the invariant every step keeps, frames, the cells an instruction reads and writes, what the target cell
receives and gives, and what a number in the assembler's text is. -/

namespace Sys2Proof.Machine

/-- The engine is in its main loop with status Running (40_engine.md R94). -/
def State.executing (s : State) : Prop := s.loader = .loaded ∧ s.status = .running

/-- The engine is about to execute `i`. -/
def State.runsAt (s : State) (i : Instr) : Prop := s.executing ∧ s.program[s.pc]? = some i

/-- The run has ended: nothing changes any more (40_engine.md R99, 30_encoding.md R69). -/
def State.ended (s : State) : Prop := s.result.isSome

/-- The engine waits at a CIN for the host's character, its only wait state (60_exceptions.md
R158). -/
def State.waiting (s : State) : Prop := s.runsAt .cin ∧ s.input = []

/-- The run ends within `k` steps; a run that never does is an outcome of its own (60_exceptions.md
R159). -/
def State.endsWithin (s : State) (k : Nat) : Prop :=
  ∃ t, Sys2Proof.core.run k s = .next t ∧ State.ended t

/-- What is true of every state of a run. -/
structure State.Inv (s : State) : Prop where
  /-- Data memory is in its canonical form (log 1). -/
  mem_wf : Memory.wf s.mem = true
  /-- "`pc` is in 0..`len(P)`" (10_state.md R24). -/
  pc_le : s.pc ≤ s.program.length
  /-- The label table is the Program's (10_state.md R26, 40_engine.md R91). -/
  labels_eq : s.labels = labelTable s.program
  /-- Every entry of the call stack is the index of a Jump (10_state.md R28). -/
  calls_jump : ∀ r ∈ s.callStack, ∃ op, s.program[r]? = some (.jmp op)
  /-- A finite call stack never holds more than `CALL_STACK_DEPTH` entries (10_state.md R29). -/
  depth_le : ∀ d, Config.callStackDepth = some d → s.callStack.length ≤ d
  /-- The Program is no longer than `PROGRAM_CAPACITY` (30_encoding.md R69). -/
  fits : s.program.length ≤ Config.programCapacity
  /-- Every snapshot is a memory in canonical form (log 10). -/
  dumps_wf : ∀ m, DiagToken.dump m ∈ s.diagnostic → Memory.wf m = true

/-! ### Frames -/

/-- Every cell of memory reads in `t` as it does in `s`. -/
def SameCells (s t : State) : Prop := ∀ a : Word, t.readCell a = s.readCell a

/-- In `t` cell `a` reads `v`, and every other cell reads as it does in `s`. -/
def StoredOnly (s t : State) (a v : Word) : Prop :=
  t.readCell a = v ∧ ∀ b : Word, b ≠ a → t.readCell b = s.readCell b

/-- All of the state but memory and the instruction pointer is the same in `t` as in `s`. -/
def SameButMemPc (s t : State) : Prop :=
  t.program = s.program ∧ t.labels = s.labels ∧ t.callStack = s.callStack ∧
  t.status = s.status ∧ t.output = s.output ∧ t.diagnostic = s.diagnostic ∧
  t.input = s.input ∧ t.loader = s.loader

/-! ### The cells an instruction reads and writes (20_memory.md R45) -/

/-- The extra read of an Address operand. -/
def operandRead : Value → List Word
  | .literal _ => []
  | .address a => [a]

/-- The cells an instruction other than DMP reads when it starts in `s`; DMP reads every cell. -/
def cellsRead (s : State) : Instr → List Word
  | .out | .cut => [Config.addrReg, s.ar]
  | .cin => [Config.addrReg]
  | .dmp => (List.range Config.memCells).map (BitVec.ofNat 16)
  | .rtn | .lab _ => []
  | .sea op | .jmp op | .ext op => operandRead op
  | .set op => Config.addrReg :: operandRead op
  | .add op | .sub op | .mul op | .div op | .ceq op | .gtn op | .ltn op | .gte op | .lte op =>
    Config.addrReg :: s.ar :: operandRead op
  | .bne op | .beq op => Config.flagCell :: operandRead op

/-- The cells an instruction may write when it starts in `s`. -/
def cellsWritten (s : State) : Instr → List Word
  | .out | .cut | .dmp | .rtn | .lab _ | .bne _ | .beq _ | .jmp _ | .ext _ => []
  | .cin | .set _ | .add _ | .sub _ | .mul _ | .div _ => [s.ar]
  | .sea _ => [Config.addrReg]
  | .ceq _ | .gtn _ | .ltn _ | .gte _ | .lte _ => [Config.flagCell]

/-! ### What the target cell receives and gives (spec/41_io.md, 42_data_arith.md, 43_compare.md) -/

/-- `i`, started in `s`, is an instruction that stores `w` into its target cell: SET, ADD, SUB, MUL, DIV
by another value than 0, or CIN with a character supplied (41_io.md R107, 42_data_arith.md R111 to
R115). -/
def StoresIntoTarget (s : State) (i : Instr) (w : Word) : Prop :=
  let x := (s.readCell (s.readCell 0xFFFE#16)).toNat
  (∃ op, i = .set op ∧ w = s.resolve op) ∨
  (∃ op, i = .add op ∧ w.toNat = (x + (s.resolve op).toNat) % 65536) ∨
  (∃ op, i = .sub op ∧ (w.toNat : Int) = (x - (s.resolve op).toNat : Int) % 65536) ∨
  (∃ op, i = .mul op ∧ w.toNat = (x * (s.resolve op).toNat) % 65536) ∨
  (∃ op, i = .div op ∧ s.resolve op ≠ 0#16 ∧ w.toNat = x / (s.resolve op).toNat) ∨
  (i = .cin ∧ ∃ c rest, s.input = c :: rest ∧ w = Config.cinStore c)

/-- `i`, started in `s`, is a compare whose predicate's result is `w`, 1 or 0 (43_compare.md R120 to
R125). -/
def ComparesTo (s : State) (i : Instr) (w : Word) : Prop :=
  let x := (s.readCell (s.readCell 0xFFFE#16)).toNat
  (∃ op, i = .ceq op ∧ w = if x = (s.resolve op).toNat then 1#16 else 0#16) ∨
  (∃ op, i = .gtn op ∧ w = if (s.resolve op).toNat < x then 1#16 else 0#16) ∨
  (∃ op, i = .ltn op ∧ w = if x < (s.resolve op).toNat then 1#16 else 0#16) ∨
  (∃ op, i = .gte op ∧ w = if (s.resolve op).toNat ≤ x then 1#16 else 0#16) ∨
  (∃ op, i = .lte op ∧ w = if x ≤ (s.resolve op).toNat then 1#16 else 0#16)

/-- `j`, executed in `u`, has cell `a` as its target: what it emits, compares and combines is the
content of cell `a`, and what it stores goes there. An instruction that uses no target cell is not
constrained (41_io.md R105 to R107, 42_data_arith.md R111 to R115, 43_compare.md R125). -/
def UsesTarget (u : State) (a : Word) : Instr → Prop
  | .out => exec .out u =
      .next { u with output := u.output ++ [.num (u.readCell a)], pc := u.pc + 1 }
  | .cut =>
    (0xD800 ≤ (u.readCell a).toNat ∧ (u.readCell a).toNat ≤ 0xDFFF →
      exec .cut u = .next { u with status := .faulted (.invalidCharacter (u.readCell a)) }) ∧
    (¬ (0xD800 ≤ (u.readCell a).toNat ∧ (u.readCell a).toNat ≤ 0xDFFF) →
      ∃ c : Char, c.toNat = (u.readCell a).toNat ∧
        exec .cut u = .next { u with output := u.output ++ [.char c], pc := u.pc + 1 })
  | .cin => ∀ (c : Char) (rest : List Char), u.input = c :: rest →
      ∃ t, exec .cin u = .next t ∧ StoredOnly u t a (Config.cinStore c)
  | .set op => ∃ t, exec (.set op) u = .next t ∧ StoredOnly u t a (u.resolve op)
  | .add op => ∃ (t : State) (r : Word), exec (.add op) u = .next t ∧ StoredOnly u t a r ∧
      r.toNat = ((u.readCell a).toNat + (u.resolve op).toNat) % 65536
  | .sub op => ∃ (t : State) (r : Word), exec (.sub op) u = .next t ∧ StoredOnly u t a r ∧
      (r.toNat : Int) = ((u.readCell a).toNat - (u.resolve op).toNat : Int) % 65536
  | .mul op => ∃ (t : State) (r : Word), exec (.mul op) u = .next t ∧ StoredOnly u t a r ∧
      r.toNat = ((u.readCell a).toNat * (u.resolve op).toNat) % 65536
  | .div op => u.resolve op ≠ 0#16 →
      ∃ (t : State) (r : Word), exec (.div op) u = .next t ∧ StoredOnly u t a r ∧
        r.toNat = (u.readCell a).toNat / (u.resolve op).toNat
  | .ceq op => ∃ t, exec (.ceq op) u = .next t ∧ StoredOnly u t 0xFFFD#16
      (if u.readCell a = u.resolve op then 1#16 else 0#16)
  | .gtn op => ∃ t, exec (.gtn op) u = .next t ∧ StoredOnly u t 0xFFFD#16
      (if (u.resolve op).toNat < (u.readCell a).toNat then 1#16 else 0#16)
  | .ltn op => ∃ t, exec (.ltn op) u = .next t ∧ StoredOnly u t 0xFFFD#16
      (if (u.readCell a).toNat < (u.resolve op).toNat then 1#16 else 0#16)
  | .gte op => ∃ t, exec (.gte op) u = .next t ∧ StoredOnly u t 0xFFFD#16
      (if (u.resolve op).toNat ≤ (u.readCell a).toNat then 1#16 else 0#16)
  | .lte op => ∃ t, exec (.lte op) u = .next t ∧ StoredOnly u t 0xFFFD#16
      (if (u.readCell a).toNat ≤ (u.resolve op).toNat then 1#16 else 0#16)
  | .dmp | .rtn | .sea _ | .lab _ | .bne _ | .beq _ | .jmp _ | .ext _ => True

/-! ### Numbers in the assembler's text (30_encoding.md R78, R79) -/

/-- `c` is the digit of value `d` in the base, hexadecimal digits in either case. -/
def DigitOf (base : Nat) (c : Char) (d : Nat) : Prop :=
  d < base ∧
    (['0', '1', '2', '3', '4', '5', '6', '7', '8', '9', 'A', 'B', 'C', 'D', 'E', 'F'][d]? = some c ∨
     ['0', '1', '2', '3', '4', '5', '6', '7', '8', '9', 'a', 'b', 'c', 'd', 'e', 'f'][d]? = some c)

/-- `digits`, of which there is at least one, are the number `n` in the base, the most significant
first. -/
def Numeral (base : Nat) (digits : List Char) (n : Nat) : Prop :=
  digits ≠ [] ∧ ∃ ds : List Nat, List.Forall₂ (DigitOf base) digits ds ∧
    n = Nat.ofDigits base ds.reverse

/-- `num` is the prefix `0x` or `0b` of the base, and then `digits`. -/
def Prefixed (base : Nat) (num digits : List Char) : Prop :=
  (base = 16 ∧ num = '0' :: 'x' :: digits) ∨ (base = 2 ∧ num = '0' :: 'b' :: digits)

/-! ### Encodings, said from the record formats (30_encoding.md R55, R60, R61, R70) -/

/-- `i` is the F0 record with this opcode byte and mode byte 0x00, encoded and decoded. -/
def EncodedF0 (i : Instr) (opcode : Byte) : Prop :=
  encode i = [0x00#8, opcode] ∧ decodeProgram [0x00#8, opcode] = .ok [i]

/-- `mk` is the F1 variant with this opcode byte: the encoder writes mode 0x00 or 0x10 and the operand
high byte first; the decoder reads Literal for mode 0x00 and Address for every other. -/
def EncodedF1 (mk : Value → Instr) (opcode : Byte) : Prop :=
  (∀ w : Word, encode (mk (.literal w)) =
    [0x00#8, opcode, w.extractLsb' 8 8, w.extractLsb' 0 8]) ∧
  (∀ w : Word, encode (mk (.address w)) =
    [0x10#8, opcode, w.extractLsb' 8 8, w.extractLsb' 0 8]) ∧
  (∀ hi lo : Byte, decodeProgram [0x00#8, opcode, hi, lo] = .ok [mk (.literal (hi ++ lo))]) ∧
  (∀ mode hi lo : Byte, mode ≠ 0x00#8 →
    decodeProgram [mode, opcode, hi, lo] = .ok [mk (.address (hi ++ lo))])

end Sys2Proof.Machine
end

