-- ==== Sys2Proof/Certificates/Slice0/Obligations.lean ====
section
/-! DEFINITION. The statements for the provers. Each is said from the spec's rules: cells are named by
their index, values by arithmetic on their numbers. A docstring names the rule, and the log entry or
the spec's decision where the statement rests on one. -/

open Sys2Proof Sys2Proof.Machine

/-! ### Encoding (30_encoding.md) -/

/-- R71: `decode(encode(P)) = P` for every Program, and `encode(decode(B)) = B` exactly for the
canonical streams. -/
def Obligations.DecodeInvertsEncode : Prop :=
  (∀ p : Program, decodeProgram (encodeProgram p) = .ok p) ∧
  (∀ (bytes : List Byte) (p : Program), decodeProgram bytes = .ok p →
    (encodeProgram p = bytes ↔ Stream.canonical bytes = true))

/-- R72: after any decodable stream, a record with a non-canonical mode byte decodes as the canonical
one does. The F0 half rests on the spec's decision D17 (log 19). -/
def Obligations.NonCanonicalModesDecodeAlike : Prop :=
  ∀ (before : List Byte) (p : Program), decodeProgram before = .ok p →
    (∀ (mode op : Byte) (rest : List Byte), op.toNat ≤ 0x04 →
      decodeProgram (before ++ mode :: op :: rest) =
        decodeProgram (before ++ 0x00#8 :: op :: rest)) ∧
    (∀ (mode op hi lo : Byte) (rest : List Byte), 0x04 < op.toNat → mode ≠ 0x00#8 →
      decodeProgram (before ++ mode :: op :: hi :: lo :: rest) =
        decodeProgram (before ++ 0x10#8 :: op :: hi :: lo :: rest))

/-- R65 with R68: after any decodable stream, a record with an opcode byte above 0x14 and two bytes
after it makes the whole decode fail with UnknownOpcode, recording the opcode byte and the record's
offset. The order of the two errors is the spec's decision D16 (log 18). -/
def Obligations.UnknownOpcodeFailsTheDecode : Prop :=
  ∀ (before : List Byte) (p : Program), decodeProgram before = .ok p →
    ∀ (mode op hi lo : Byte) (rest : List Byte), 0x15 ≤ op.toNat →
      decodeProgram (before ++ mode :: op :: hi :: lo :: rest) =
        .error (.unknownOpcode op before.length)

/-- R66: after any decodable stream, a stream that ends inside a record fails with TruncatedStream:
one byte where a header should start, or fewer than two where a value should be.
That an opcode byte above 0x14 gives this error too, and not UnknownOpcode, is the spec's decision D16
(log 18). -/
def Obligations.TruncatedStreamFailsTheDecode : Prop :=
  ∀ (before : List Byte) (p : Program), decodeProgram before = .ok p →
    (∀ b : Byte, decodeProgram (before ++ [b]) = .error (.truncatedStream before.length)) ∧
    (∀ mode op : Byte, 0x04 < op.toNat →
      decodeProgram (before ++ [mode, op]) = .error (.truncatedStream before.length)) ∧
    (∀ mode op hi : Byte, 0x04 < op.toNat →
      decodeProgram (before ++ [mode, op, hi]) = .error (.truncatedStream before.length))

/-- R67: a decode that succeeds has consumed the stream to its end, record by record, and the empty
stream is the empty Program. -/
def Obligations.DecodeEndsAtARecordBoundary : Prop :=
  decodeProgram [] = .ok [] ∧
  ∀ (bytes : List Byte) (p : Program), decodeProgram bytes = .ok p →
    bytes.length = (p.map fun i => if i.opcode.toNat ≤ 0x04 then 2 else 4).sum

/-- R57: the opcode bytes 0x00 to 0x14 name the 21 variants, one each, and no other byte names one. -/
def Obligations.OpcodesNameTheVariants : Prop :=
  (∀ op : Byte, (∃ i : Instr, i.opcode = op) ↔ op.toNat ≤ 0x14) ∧
  (∀ i j : Instr, i.opcode = j.opcode → i.operand = j.operand → i = j)

/-- Records written out from R55, R58 and R60 decode to the instruction they stand for. -/
def Obligations.WrittenRecordsDecode : Prop :=
  decodeProgram [0x00#8, 0x00#8] = .ok [.out] ∧
  decodeProgram [0x00#8, 0x04#8] = .ok [.rtn] ∧
  decodeProgram [0x00#8, 0x06#8, 0x00#8, 0x05#8] = .ok [.set (.literal 0x0005#16)] ∧
  decodeProgram [0x10#8, 0x06#8, 0x12#8, 0x34#8] = .ok [.set (.address 0x1234#16)] ∧
  decodeProgram [0x00#8, 0x0D#8, 0x80#8, 0x01#8] = .ok [.gtn (.literal 0x8001#16)] ∧
  decodeProgram [0x80#8, 0x14#8, 0xFF#8, 0xFE#8] = .ok [.ext (.address 0xFFFE#16)]

/-- R86: a text program that lexes survives encoding and decoding. -/
def Obligations.TextProgramsSurviveTheCodec : Prop :=
  ∀ (text : List Char) (p : Program), assemble text = .ok p →
    decodeProgram (encodeProgram p) = .ok p

/-- R85 with R76 to R82: the assembler reads the canonical text of every Program back as that Program.
Four digits, capital letters and one space are the model's form of the canonical text (log 31). -/
def Obligations.AssemblerReadsCanonicalText : Prop :=
  ∀ p : Program, assemble (programText p) = .ok p

/-- R76: a comment and leading whitespace change nothing of a line that assembles, and a line with
nothing else yields no instruction. Which characters are whitespace is the model's choice (log 29). -/
def Obligations.CommentsAndLeadingBlanksAreIgnored : Prop :=
  (∀ (line comment : List Char) (r : Option Instr), ';' ∉ line → assembleLine line = .ok r →
    assembleLine (line ++ ';' :: comment) = .ok r) ∧
  (∀ (line : List Char) (b : Char) (r : Option Instr), b = ' ' ∨ b = '\t' →
    assembleLine line = .ok r → assembleLine (b :: line) = .ok r) ∧
  (∀ blanks comment : List Char, (∀ b ∈ blanks, b = ' ' ∨ b = '\t') →
    assembleLine blanks = .ok none ∧ assembleLine (blanks ++ ';' :: comment) = .ok none)

/-- R77 to R81: the mnemonic and operand of a line. A token that is no mnemonic is UnknownMnemonic; a
missing operand is MissingOperand; a value-less mnemonic ignores every operand (the spec's decision D24,
log 27), and every mnemonic a third or later token. An operand is an optional `*` for Address, `0x` or
`0b`, and digits of a value up to 0xFFFF; without such a prefix it is UnknownNumberFormat, and with no
digit, a wrong digit or a larger value InvalidNumber. That error, the empty digit string and either case
of a hexadecimal digit are the spec's decision D25 (log 26); that an error records the line's text is the
model's (log 30). -/
def Obligations.AssemblerChecksTheMnemonic : Prop :=
  (∀ (line name : List Char) (operands : List (List Char)), (∀ i, mnemonicOf i ≠ name) →
    parseTokens line name operands = .error (.unknownMnemonic line)) ∧
  (∀ (line : List Char) (i : Instr), i.operand ≠ none →
    parseTokens line (mnemonicOf i) [] = .error (.missingOperand line)) ∧
  (∀ (line : List Char) (operands : List (List Char)) (i : Instr), i.operand = none →
    parseTokens line (mnemonicOf i) operands = .ok i) ∧
  (∀ (line name tok : List Char) (more : List (List Char)),
    parseTokens line name (tok :: more) = parseTokens line name [tok]) ∧
  (∀ (line num digits : List Char) (base : Nat) (i : Instr) (k : Word), Prefixed base num digits →
    Numeral base digits k.toNat →
    (i.operand = some (.literal k) → parseTokens line (mnemonicOf i) [num] = .ok i) ∧
    (i.operand = some (.address k) → parseTokens line (mnemonicOf i) ['*' :: num] = .ok i)) ∧
  (∀ (line num digits : List Char) (base : Nat) (i : Instr), Prefixed base num digits →
    (∀ n ≤ 0xFFFF, ¬ Numeral base digits n) → i.operand ≠ none →
    parseTokens line (mnemonicOf i) [num] = .error (.invalidNumber line) ∧
    parseTokens line (mnemonicOf i) ['*' :: num] = .error (.invalidNumber line)) ∧
  (∀ (line num : List Char) (i : Instr), (∀ base digits, ¬ Prefixed base num digits) →
    i.operand ≠ none →
    (num.head? ≠ some '*' →
      parseTokens line (mnemonicOf i) [num] = .error (.unknownNumberFormat line)) ∧
    parseTokens line (mnemonicOf i) ['*' :: num] = .error (.unknownNumberFormat line))

/-! ### Memory, operands, labels -/

/-- R4: `MemWrite` sets one cell and changes no other cell and nothing else of the state. -/
def Obligations.MemWriteSetsOneCell : Prop :=
  ∀ (s : State) (a v : Word), StoredOnly s (s.writeCell a v) a v ∧
    SameButMemPc s (s.writeCell a v) ∧ (s.writeCell a v).pc = s.pc

/-- Memories in canonical form that read the same at every cell are equal data; the form is the
model's (log 1). -/
def Obligations.CanonicalMemoriesWithEqualCellsAreEqual : Prop :=
  ∀ m n : Memory, Memory.wf m = true → Memory.wf n = true →
    (∀ a : Word, Memory.read m a = Memory.read n a) → m = n

/-- R6: a literal yields itself, an address the content of the cell at that index. -/
def Obligations.ResolveYieldsLiteralOrCell : Prop :=
  ∀ (s : State) (k : Word),
    s.resolve (.literal k) = k ∧ s.resolve (.address k) = s.readCell k

/-- R91, R92: the label table maps a key to the last index that declares it with a literal operand,
and has no entry for a key that none declares. -/
def Obligations.LabelTableHoldsTheLastDeclaration : Prop :=
  ∀ (p : Program) (k : Word),
    (∀ i : Nat, Table.find k.toNat (labelTable p) = some i ↔
      p[i]? = some (.lab (.literal k)) ∧ ∀ j, i < j → p[j]? ≠ some (.lab (.literal k))) ∧
    (Table.find k.toNat (labelTable p) = none ↔ Instr.lab (.literal k) ∉ p)

/-! ### Start of a run, load, main loop -/

/-- R38, R161, R163: at the start of a run every cell is 0, so the address register and the flag are,
the pointer is 0, the call stack is empty, the status is Running (the name is the spec's decision D12,
log 17) and no token is emitted. Reset is the start of the empty Program's run (log 5). -/
def Obligations.RunStartsFromTheResetValues : Prop :=
  State.reset = State.start [] ∧
  ∀ p : Program, (∀ a : Word, (State.start p).readCell a = 0#16) ∧
    (State.start p).pc = 0 ∧ (State.start p).callStack = [] ∧
    (State.start p).program = p ∧ (State.start p).labels = labelTable p ∧
    (State.start p).status = .running ∧ (State.start p).output = [] ∧
    (State.start p).diagnostic = []

/-- R69, R84, R90, R162: a byte stream that decodes, or a text that assembles, starts the run from the
reset values, or is refused as too large and leaves all else as it was. That the load is one step, and
that supplied characters stay, is the model's (logs 3, 4); the capacity error is the spec's decision D14,
and the model checks a text's Program too (log 8). -/
def Obligations.LoadStartsTheRunOrRefusesTheProgram : Prop :=
  ∀ (s : State) (src : Source) (p : Program), s.loader = .pending src →
    ((∃ bytes, src = .binary bytes ∧ decodeProgram bytes = .ok p) ∨
      (∃ text, src = .text text ∧ assemble text = .ok p)) →
    step s = .next (if p.length ≤ Config.programCapacity
      then { mem := [], program := p, pc := 0, labels := labelTable p, callStack := [],
             status := .running, output := [], diagnostic := [], input := s.input,
             loader := .loaded }
      else { s with loader := .failed (.programTooLarge p.length) })

/-- R69, R84, R36: a stream or text that is malformed ends the run with its load error; nothing else
changes and nothing executes from there. The load phase is the model's own field (log 4), that a step
after the failed load changes nothing is the model's (log 2), and the reported codes are the spec's
decision D12 (log 17). -/
def Obligations.MalformedSourceIsALoadError : Prop :=
  (∀ (s : State) (bytes : List Byte) (e : CodecError), s.loader = .pending (.binary bytes) →
    decodeProgram bytes = .error e → ∃ t, step s = .next t ∧
      t = { s with loader := .failed (.codec e) } ∧
      t.result = some (.loadError (match e with
        | .unknownOpcode _ _ => 0x10#8
        | .truncatedStream _ => 0x11#8) (.codec e)) ∧ step t = .next t) ∧
  (∀ (s : State) (text : List Char) (e : LexError), s.loader = .pending (.text text) →
    assemble text = .error e → ∃ t, step s = .next t ∧
      t = { s with loader := .failed (.lex e) } ∧
      t.result = some (.loadError (match e with
        | .unknownMnemonic _ => 0x20#8
        | .unknownNumberFormat _ => 0x21#8
        | .missingOperand _ => 0x22#8
        | .noTokens _ => 0x23#8
        | .invalidNumber _ => 0x24#8) (.lex e)) ∧ step t = .next t)

/-- R96, R104: a step in the main loop with status Running and the pointer at an instruction is that
instruction's execution. A fetch reads a decoded instruction, never bytes (R41), so the second clause
says the same of a Program that a byte stream decoded to. -/
def Obligations.StepRunsTheFetchedInstruction : Prop :=
  (∀ (s : State) (i : Instr), s.loader = .loaded → s.status = .running →
    s.program[s.pc]? = some i → step s = exec i s) ∧
  (∀ (s : State) (p q : Program) (i : Instr), s.loader = .loaded → s.status = .running →
    decodeProgram (encodeProgram p ++ encode i ++ encodeProgram q) = .ok s.program →
    s.pc = p.length → step s = exec i s)

/-- R95: at or past the end of the Program the run halts with exit code 0 and no instruction executes;
so an empty Program halts at once. -/
def Obligations.EndOfProgramHaltsWithZero : Prop :=
  ∀ s : State, s.loader = .loaded → s.status = .running → s.program.length ≤ s.pc →
    step s = .next { s with status := .halted 0#16 }

/-- R99: from a final status, and after a failed load, nothing changes. That "no step" is a step that
changes nothing is the model's (log 2). -/
def Obligations.EndedRunsChangeNothing : Prop :=
  ∀ s : State, s.ended → step s = .next s

/-- No step ends in a fault or a refusal of the model. R75 leaves no undecodable instruction to
execute; that an ended run or a runtime error is a next state is the model's (log 2), and so are the
waiting CIN's (log 3) and the load's (log 4). -/
def Obligations.EveryStepAnswersANextState : Prop :=
  ∀ s : State, ∃ t, step s = .next t

/-- The reset state meets the invariant (R38; log 5 for the empty Program). -/
def Obligations.ResetMeetsTheInvariant : Prop := State.Inv State.reset

/-- R24, R26, R28, R29, R69: every step keeps the invariant, from any state that meets it: the memory
keeps its canonical form (log 1), the pointer stays in 0..`len(P)`, the label table stays the
Program's, every call-stack entry is the index of a Jump, the call stack stays within its depth
(spec's decision D13, log 7) and the Program within its capacity (D14, log 8). -/
def Obligations.StepKeepsTheInvariant : Prop :=
  ∀ s t : State, s.Inv → step s = .next t → t.Inv

/-- R36, R159, R142: the run result is absent while the run loads or goes on, and then is the exit code,
or the error with the code of R142: 0x01 to 0x05 at run time, 0x10 to 0x12 and 0x20 to 0x24 at load.
Codes and the status are the spec's decision D12 (log 17), the load phase is the model's field (log 4). -/
def Obligations.RunResultReportsTheOutcome : Prop :=
  (∀ (s : State) (src : Source), s.loader = .pending src → s.result = none) ∧
  (∀ (s : State) (e : LoadError), s.loader = .failed e → s.result = some (.loadError (match e with
    | .codec (.unknownOpcode _ _) => 0x10#8
    | .codec (.truncatedStream _) => 0x11#8
    | .programTooLarge _ => 0x12#8
    | .lex (.unknownMnemonic _) => 0x20#8
    | .lex (.unknownNumberFormat _) => 0x21#8
    | .lex (.missingOperand _) => 0x22#8
    | .lex (.noTokens _) => 0x23#8
    | .lex (.invalidNumber _) => 0x24#8) e)) ∧
  ∀ s : State, s.loader = .loaded →
    (s.status = .running → s.result = none) ∧
    (∀ c, s.status = .halted c → s.result = some (.exit c)) ∧
    (∀ e, s.status = .faulted e → s.result = some (.runtimeError (match e with
      | .undeclaredLabel _ => 0x01#8
      | .emptyCallStack => 0x02#8
      | .invalidCharacter _ => 0x03#8
      | .divisionByZero => 0x04#8
      | .callStackOverflow => 0x05#8) e))

/-! ### Input and output (41_io.md) -/

/-- R105: OUT emits the target cell's content as a number, and nothing else changes but the pointer. -/
def Obligations.OutEmitsTheTargetCell : Prop :=
  EncodedF0 .out 0x00#8 ∧
  ∀ s : State, exec .out s = .next
    { s with output := s.output ++ [.num (s.readCell (s.readCell 0xFFFE#16))], pc := s.pc + 1 }

/-- R106: CUT emits a target cell that is no surrogate as the character with that code point. Which
values are characters is the spec's decision D21 (log 24). -/
def Obligations.CutEmitsACharacter : Prop :=
  EncodedF0 .cut 0x01#8 ∧
  ∀ s : State, ¬ (0xD800 ≤ (s.readCell (s.readCell 0xFFFE#16)).toNat ∧
      (s.readCell (s.readCell 0xFFFE#16)).toNat ≤ 0xDFFF) →
    ∃ c : Char, c.toNat = (s.readCell (s.readCell 0xFFFE#16)).toNat ∧
      exec .cut s = .next { s with output := s.output ++ [.char c], pc := s.pc + 1 }

/-- R106, R145: CUT of a surrogate raises InvalidCharacter with the value, and does nothing else
(decisions D15, D21; logs 21, 24). -/
def Obligations.CutOfASurrogateFaults : Prop :=
  ∀ s : State, 0xD800 ≤ (s.readCell (s.readCell 0xFFFE#16)).toNat →
    (s.readCell (s.readCell 0xFFFE#16)).toNat ≤ 0xDFFF →
    exec .cut s = .next { s with
      status := .faulted (.invalidCharacter (s.readCell (s.readCell 0xFFFE#16))) }

/-- R107: CIN takes the next character, stores it in the target cell and echoes it as read. Up to
U+FFFF the code point is stored; above, whatever `cinStore` gives (OPEN, D8, log 6). -/
def Obligations.CinStoresAndEchoesTheCharacter : Prop :=
  EncodedF0 .cin 0x02#8 ∧
  (∀ c : Char, c.toNat ≤ 0xFFFF → (Config.cinStore c).toNat = c.toNat) ∧
  ∀ (s : State) (c : Char) (rest : List Char), s.input = c :: rest →
    ∃ t, exec .cin s = .next t ∧
      StoredOnly s t (s.readCell 0xFFFE#16) (Config.cinStore c) ∧
      t.output = s.output ++ [.char c] ∧ t.input = rest ∧ t.pc = s.pc + 1 ∧
      t.program = s.program ∧ t.labels = s.labels ∧ t.callStack = s.callStack ∧
      t.status = s.status ∧ t.diagnostic = s.diagnostic ∧ t.loader = s.loader

/-- R107, R170: at a CIN with no character the step changes nothing, and the supply of a character
lifts the wait. That the wait is a step that changes nothing is the model's (log 3). -/
def Obligations.CinWaitsUntilACharacterIsSupplied : Prop :=
  ∀ s : State, s.waiting → step s = .next s ∧
    ∀ c : Char, ∃ t, step (s.supply c) = .next t ∧
      StoredOnly s t (s.readCell 0xFFFE#16) (Config.cinStore c) ∧
      t.output = s.output ++ [.char c] ∧ t.input = [] ∧ t.pc = s.pc + 1

/-- R108: DMP appends a dump of all 65,536 cells in index order to the diagnostic sink, and nothing
else changes but the pointer. The token's content is the spec's decision D11 (log 10). -/
def Obligations.DmpEmitsEveryCell : Prop :=
  EncodedF0 .dmp 0x03#8 ∧
  ∀ s : State, ∃ d : DiagToken,
    exec .dmp s = .next { s with diagnostic := s.diagnostic ++ [d], pc := s.pc + 1 } ∧
    d.values.length = 65536 ∧ ∀ a : Word, d.values[a.toNat]? = some (s.readCell a)

/-! ### Data movement and arithmetic (42_data_arith.md) -/

/-- R110: SEA stores the resolved operand into the address register and writes no other cell. -/
def Obligations.SeaStoresIntoTheAddressRegister : Prop :=
  EncodedF1 .sea 0x05#8 ∧
  ∀ (op : Value) (s : State), ∃ t, exec (.sea op) s = .next t ∧
    StoredOnly s t 0xFFFE#16 (s.resolve op) ∧ t.pc = s.pc + 1 ∧ SameButMemPc s t

/-- R111: SET overwrites the target cell with the resolved operand and writes no other cell. -/
def Obligations.SetOverwritesTheTargetCell : Prop :=
  EncodedF1 .set 0x06#8 ∧
  ∀ (op : Value) (s : State), ∃ t, exec (.set op) s = .next t ∧
    StoredOnly s t (s.readCell 0xFFFE#16) (s.resolve op) ∧ t.pc = s.pc + 1 ∧ SameButMemPc s t

/-- R112: ADD stores the sum modulo 65536 into the target cell and writes no other cell; no carry is
kept. -/
def Obligations.AddStoresTheSumModulo65536 : Prop :=
  EncodedF1 .add 0x07#8 ∧
  ∀ (op : Value) (s : State), ∃ (t : State) (r : Word), exec (.add op) s = .next t ∧
    r.toNat = ((s.readCell (s.readCell 0xFFFE#16)).toNat + (s.resolve op).toNat) % 65536 ∧
    StoredOnly s t (s.readCell 0xFFFE#16) r ∧ t.pc = s.pc + 1 ∧ SameButMemPc s t

/-- R113: SUB stores target minus operand modulo 65536 into the target cell. The operand order is the
spec's decision D3 (log 13). -/
def Obligations.SubStoresTheDifferenceModulo65536 : Prop :=
  EncodedF1 .sub 0x08#8 ∧
  ∀ (op : Value) (s : State), ∃ (t : State) (r : Word), exec (.sub op) s = .next t ∧
    (r.toNat : Int) =
      ((s.readCell (s.readCell 0xFFFE#16)).toNat - (s.resolve op).toNat : Int) % 65536 ∧
    StoredOnly s t (s.readCell 0xFFFE#16) r ∧ t.pc = s.pc + 1 ∧ SameButMemPc s t

/-- R114: MUL stores the low 16 bits of the product into the target cell. -/
def Obligations.MulStoresTheProductModulo65536 : Prop :=
  EncodedF1 .mul 0x09#8 ∧
  ∀ (op : Value) (s : State), ∃ (t : State) (r : Word), exec (.mul op) s = .next t ∧
    r.toNat = ((s.readCell (s.readCell 0xFFFE#16)).toNat * (s.resolve op).toNat) % 65536 ∧
    StoredOnly s t (s.readCell 0xFFFE#16) r ∧ t.pc = s.pc + 1 ∧ SameButMemPc s t

/-- R115, R146: DIV by another value than 0 stores the unsigned quotient of target by operand into the
target cell; DIV by 0 raises DivisionByZero and writes nothing. Order, rounding and the state at the
fault are the spec's decisions D3, D5, D15 (logs 13, 15, 21). -/
def Obligations.DivStoresTheQuotientOrFaults : Prop :=
  EncodedF1 .div 0x0A#8 ∧
  (∀ (op : Value) (s : State), s.resolve op ≠ 0#16 →
    ∃ (t : State) (r : Word), exec (.div op) s = .next t ∧
      r.toNat = (s.readCell (s.readCell 0xFFFE#16)).toNat / (s.resolve op).toNat ∧
      StoredOnly s t (s.readCell 0xFFFE#16) r ∧ t.pc = s.pc + 1 ∧ SameButMemPc s t) ∧
  (∀ (op : Value) (s : State), s.resolve op = 0#16 →
    exec (.div op) s = .next { s with status := .faulted .divisionByZero })

/-! ### Comparison (43_compare.md) -/

/-- R120: CEQ stores 1 into the comparison flag if the target cell equals the operand, else 0, and
writes no other cell. -/
def Obligations.CeqSetsTheFlagOnEquality : Prop :=
  EncodedF1 .ceq 0x0C#8 ∧
  ∀ (op : Value) (s : State), ∃ t, exec (.ceq op) s = .next t ∧
    StoredOnly s t 0xFFFD#16
      (if s.readCell (s.readCell 0xFFFE#16) = s.resolve op then 1#16 else 0#16) ∧
    t.pc = s.pc + 1 ∧ SameButMemPc s t

/-- R121 to R124: GTN, LTN, GTE and LTE store 1 or 0 into the comparison flag by the unsigned order of
target cell and operand, and write no other cell. Order and signedness are the spec's decision D4, and
the wiring D6 (logs 14, 16). -/
def Obligations.OrderComparesSetTheFlagUnsigned : Prop :=
  EncodedF1 .gtn 0x0D#8 ∧ EncodedF1 .ltn 0x0E#8 ∧ EncodedF1 .gte 0x0F#8 ∧
  EncodedF1 .lte 0x10#8 ∧
  ∀ (op : Value) (s : State),
    (∃ t, exec (.gtn op) s = .next t ∧ StoredOnly s t 0xFFFD#16
      (if (s.resolve op).toNat < (s.readCell (s.readCell 0xFFFE#16)).toNat then 1#16 else 0#16) ∧
      t.pc = s.pc + 1 ∧ SameButMemPc s t) ∧
    (∃ t, exec (.ltn op) s = .next t ∧ StoredOnly s t 0xFFFD#16
      (if (s.readCell (s.readCell 0xFFFE#16)).toNat < (s.resolve op).toNat then 1#16 else 0#16) ∧
      t.pc = s.pc + 1 ∧ SameButMemPc s t) ∧
    (∃ t, exec (.gte op) s = .next t ∧ StoredOnly s t 0xFFFD#16
      (if (s.resolve op).toNat ≤ (s.readCell (s.readCell 0xFFFE#16)).toNat then 1#16 else 0#16) ∧
      t.pc = s.pc + 1 ∧ SameButMemPc s t) ∧
    (∃ t, exec (.lte op) s = .next t ∧ StoredOnly s t 0xFFFD#16
      (if (s.readCell (s.readCell 0xFFFE#16)).toNat ≤ (s.resolve op).toNat then 1#16 else 0#16) ∧
      t.pc = s.pc + 1 ∧ SameButMemPc s t)

/-! ### Control transfer (44_control.md) -/

/-- R130, R144: RTN pops the top of the call stack and resumes after that index; with an empty call
stack it raises EmptyCallStack. Nothing else changes. -/
def Obligations.RtnResumesAfterThePoppedIndex : Prop :=
  EncodedF0 .rtn 0x04#8 ∧
  (∀ (s : State) (r : Nat) (rest : List Nat), s.callStack = r :: rest →
    exec .rtn s = .next { s with callStack := rest, pc := r + 1 }) ∧
  (∀ s : State, s.callStack = [] →
    exec .rtn s = .next { s with status := .faulted .emptyCallStack })

/-- R131: LAB changes nothing but the pointer, whatever its operand. -/
def Obligations.LabOnlyAdvancesThePointer : Prop :=
  EncodedF1 .lab 0x0B#8 ∧
  ∀ (op : Value) (s : State), exec (.lab op) s = .next { s with pc := s.pc + 1 }

/-- R132, R136: BNE to a declared label goes there when the flag is exactly 0, and falls through for
every other flag value (spec's decision D19, log 23). -/
def Obligations.BneBranchesOnFlagZero : Prop :=
  EncodedF1 .bne 0x11#8 ∧
  ∀ (op : Value) (s : State) (t : Nat), s.labelIndex (s.resolve op) = some t →
    exec (.bne op) s =
      .next { s with pc := if s.readCell 0xFFFD#16 = 0#16 then t else s.pc + 1 }

/-- R133, R136: BEQ to a declared label goes there when the flag is exactly 1, and falls through for
every other flag value (spec's decision D19, log 23). -/
def Obligations.BeqBranchesOnFlagOne : Prop :=
  EncodedF1 .beq 0x12#8 ∧
  ∀ (op : Value) (s : State) (t : Nat), s.labelIndex (s.resolve op) = some t →
    exec (.beq op) s =
      .next { s with pc := if s.readCell 0xFFFD#16 = 1#16 then t else s.pc + 1 }

/-- R134: JMP to a declared label, with the call stack not full, pushes its own index and goes to the
label. -/
def Obligations.JmpPushesItsOwnIndex : Prop :=
  EncodedF1 .jmp 0x13#8 ∧
  ∀ (op : Value) (s : State) (t : Nat), s.labelIndex (s.resolve op) = some t →
    Config.callStackDepth ≠ some s.callStack.length →
    exec (.jmp op) s = .next { s with callStack := s.pc :: s.callStack, pc := t }

/-- R143, R147, R149: BNE, BEQ and JMP to an undeclared key raise UndeclaredLabel with the key, the
branches whether or not they would be taken, JMP before it looks at the call stack; JMP to a declared
label raises CallStackOverflow exactly when the call stack is full. The order and the overflow are the
spec's decisions D7, D13 (logs 7, 22). -/
def Obligations.LabelAndOverflowErrorsComeInOrder : Prop :=
  (∀ (op : Value) (s : State), s.labelIndex (s.resolve op) = none →
    ∀ i : Instr, i = .bne op ∨ i = .beq op ∨ i = .jmp op →
      exec i s = .next { s with status := .faulted (.undeclaredLabel (s.resolve op)) }) ∧
  (∀ (op : Value) (s t : State), s.labelIndex (s.resolve op) ≠ none →
    exec (.jmp op) s = .next t → s.status = .running →
    (t.status = .faulted .callStackOverflow ↔
      Config.callStackDepth = some s.callStack.length))

/-- R135: EXT halts the run with the resolved operand as exit code; nothing else changes, the pointer
and pending calls included. The wiring and the final pointer are the spec's decisions D6, D27 (logs
16, 28). -/
def Obligations.ExtHaltsWithTheOperand : Prop :=
  EncodedF1 .ext 0x14#8 ∧
  ∀ (op : Value) (s : State), exec (.ext op) s = .next { s with status := .halted (s.resolve op) }

/-! ### Rules about the whole machine -/

/-- R97, R25: every instruction ends in one of six ways: the pointer advances by one, or becomes a
label's index (BNE, BEQ, JMP) or a popped index plus one (RTN), or the run halts by EXT, or it faults,
or CIN waits; in the last three the pointer stays. -/
def Obligations.EveryInstructionEndsInOneOfSixWays : Prop :=
  ∀ (i : Instr) (s : State), ∃ t, exec i s = .next t ∧
    ((t.status = s.status ∧ t.pc = s.pc + 1) ∨
     (t.status = s.status ∧ ∃ op, (i = .bne op ∨ i = .beq op ∨ i = .jmp op) ∧
        s.labelIndex (s.resolve op) = some t.pc) ∨
     (t.status = s.status ∧ i = .rtn ∧ ∃ r rest, s.callStack = r :: rest ∧ t.pc = r + 1) ∨
     (∃ op, i = .ext op ∧ t = { s with status := .halted (s.resolve op) }) ∨
     (∃ e, t = { s with status := .faulted e }) ∨
     (i = .cin ∧ s.input = [] ∧ t = s))

/-- R148: a runtime error is precise: whatever instruction raises it, nothing of the state changes but
the status. That the faulting instruction has no effect is the spec's decision D15 (log 21). -/
def Obligations.RuntimeErrorsArePrecise : Prop :=
  ∀ (i : Instr) (s t : State) (e : RuntimeError), s.status = .running → exec i s = .next t →
    t.status = .faulted e → t = { s with status := .faulted e }

/-- R142 to R147, R149: which instruction raises which runtime error, when, and with what info; no
other instruction raises one. That an untaken branch to an undeclared key raises too, and that
JMP raises UndeclaredLabel before the overflow, is the spec's decision D7 (log 22); the overflow is D13
and the surrogates D21 (logs 7, 24). -/
def Obligations.OnlyTheNamedInstructionsRaiseErrors : Prop :=
  ∀ (i : Instr) (s t : State) (e : RuntimeError), s.status = .running → exec i s = .next t →
    (t.status = .faulted e ↔
      (∃ op, (i = .bne op ∨ i = .beq op ∨ i = .jmp op) ∧
        s.labelIndex (s.resolve op) = none ∧ e = .undeclaredLabel (s.resolve op)) ∨
      (i = .rtn ∧ s.callStack = [] ∧ e = .emptyCallStack) ∨
      (i = .cut ∧ 0xD800 ≤ (s.readCell (s.readCell 0xFFFE#16)).toNat ∧
        (s.readCell (s.readCell 0xFFFE#16)).toNat ≤ 0xDFFF ∧
        e = .invalidCharacter (s.readCell (s.readCell 0xFFFE#16))) ∨
      (∃ op, i = .div op ∧ s.resolve op = 0#16 ∧ e = .divisionByZero) ∨
      (∃ op, i = .jmp op ∧ s.labelIndex (s.resolve op) ≠ none ∧
        Config.callStackDepth = some s.callStack.length ∧ e = .callStackOverflow))

/-- R31: the address register changes only by SEA, or by SET, ADD, SUB, MUL, DIV or CIN whose target
cell it is. -/
def Obligations.OnlyWritersOfTheAddressRegister : Prop :=
  ∀ (i : Instr) (s t : State), exec i s = .next t → t.readCell 0xFFFE#16 ≠ s.readCell 0xFFFE#16 →
    (∃ op, i = .sea op) ∨
    (s.readCell 0xFFFE#16 = 0xFFFE#16 ∧ (i = .cin ∨
      ∃ op, i = .set op ∨ i = .add op ∨ i = .sub op ∨ i = .mul op ∨ i = .div op))

/-- R17, R30: the comparison flag changes only by a compare, which leaves 0 or 1 there, or by SET, ADD,
SUB, MUL, DIV or CIN whose target cell it is. -/
def Obligations.OnlyWritersOfTheComparisonFlag : Prop :=
  ∀ (i : Instr) (s t : State), exec i s = .next t → t.readCell 0xFFFD#16 ≠ s.readCell 0xFFFD#16 →
    ((∃ op, i = .ceq op ∨ i = .gtn op ∨ i = .ltn op ∨ i = .gte op ∨ i = .lte op) ∧
      (t.readCell 0xFFFD#16 = 0#16 ∨ t.readCell 0xFFFD#16 = 1#16)) ∨
    (s.readCell 0xFFFE#16 = 0xFFFD#16 ∧ (i = .cin ∨
      ∃ op, i = .set op ∨ i = .add op ∨ i = .sub op ∨ i = .mul op ∨ i = .div op))

/-- R45, the cells written: no instruction changes a cell that R45's table does not list for it. -/
def Obligations.InstructionsWriteOnlyTheirCells : Prop :=
  ∀ (i : Instr) (s t : State), exec i s = .next t →
    ∀ a : Word, a ∉ cellsWritten s i → t.readCell a = s.readCell a

/-- R45, the cells read: an instruction other than DMP does the same in a memory that agrees on the
cells R45's table lists as read: the rest of the next state is the same, and each cell either holds
the same value in both or was left alone in both. -/
def Obligations.InstructionsReadOnlyTheirCells : Prop :=
  ∀ (i : Instr) (s t : State) (m : Memory), i ≠ .dmp →
    (∀ a ∈ cellsRead s i, Memory.read m a = s.readCell a) → exec i s = .next t →
    ∃ u, exec i { s with mem := m } = .next u ∧ u = { t with mem := u.mem } ∧
      ∀ a : Word, u.readCell a = t.readCell a ∨
        (u.readCell a = Memory.read m a ∧ t.readCell a = s.readCell a)

/-- R23, R26, R52: once a run has started no step changes the Program or the label table. -/
def Obligations.ProgramAndLabelsAreReadOnly : Prop :=
  ∀ s t : State, s.loader = .loaded → step s = .next t →
    t.program = s.program ∧ t.labels = s.labels ∧ t.loader = .loaded

/-- R28: only JMP pushes, its own index, and only RTN pops, one entry; no other instruction changes the
call stack. -/
def Obligations.OnlyJmpAndRtnMoveTheCallStack : Prop :=
  ∀ (i : Instr) (s t : State), exec i s = .next t → t.callStack ≠ s.callStack →
    ((∃ op, i = .jmp op) ∧ t.callStack = s.pc :: s.callStack) ∨
    (i = .rtn ∧ ∃ r, s.callStack = r :: t.callStack)

/-- R33, R34, R35: the sinks only grow, by one token at most, and only by OUT, CUT, CIN (output) and
DMP (diagnostic); only CIN takes a character. -/
def Obligations.PortsMoveOnlyByTheirInstructions : Prop :=
  ∀ (i : Instr) (s t : State), exec i s = .next t →
    (t.output = s.output ∨
      ((i = .out ∨ i = .cut ∨ i = .cin) ∧ ∃ x, t.output = s.output ++ [x])) ∧
    (t.diagnostic = s.diagnostic ∨ (i = .dmp ∧ ∃ x, t.diagnostic = s.diagnostic ++ [x])) ∧
    (t.input = s.input ∨ (i = .cin ∧ ∃ c, s.input = c :: t.input))

/-! ### Runs of a few steps -/

/-- R166: a write to the address register takes effect at the very next instruction, be it SEA's or, with
AR = 0xFFFE, that of SET, ADD, SUB, MUL, DIV or CIN, whose own target stays cell 0xFFFE. Whatever
instruction `j` comes next, it reads the register as written, by an Address operand and as the index of
its target cell. Values of SUB and DIV, of a wide character, of compares and of CUT are the spec's
decisions D3, D5, D8, D4 and D21 (logs 13, 15, 6, 14, 24). -/
def Obligations.SeaTakesEffectAtTheNextInstruction : Prop :=
  ∀ (s : State) (i j : Instr) (w : Word), s.executing → s.program[s.pc]? = some i →
    s.program[s.pc + 1]? = some j →
    ((∃ op, i = .sea op ∧ w = s.resolve op) ∨
      (s.readCell 0xFFFE#16 = 0xFFFE#16 ∧ StoresIntoTarget s i w)) →
    ∃ u, step s = .next u ∧ StoredOnly s u 0xFFFE#16 w ∧ u.pc = s.pc + 1 ∧
      Sys2Proof.core.run 2 s = exec j u ∧ u.resolve (.address 0xFFFE#16) = w ∧ UsesTarget u w j

/-- R167: a write to the comparison flag takes effect at the very next instruction, be it a compare's
or, with AR = 0xFFFD, that of SET, ADD, SUB, MUL, DIV or CIN. Any next instruction runs on the flag as
written, BNE to a declared key branches when it is 0 and BEQ when it is 1; an Address label operand that
names the flag reads it as written too. Values and order are the spec's decisions D3, D4, D5, D8 and the
exact 0 and 1 are D19 (logs 13, 14, 15, 6, 23). -/
def Obligations.CompareThenBranchUsesTheResult : Prop :=
  ∀ (s : State) (i j : Instr) (w : Word), s.executing → s.program[s.pc]? = some i →
    s.program[s.pc + 1]? = some j →
    (ComparesTo s i w ∨ (s.readCell 0xFFFE#16 = 0xFFFD#16 ∧ StoresIntoTarget s i w)) →
    ∃ u, step s = .next u ∧ StoredOnly s u 0xFFFD#16 w ∧ u.pc = s.pc + 1 ∧
      Sys2Proof.core.run 2 s = exec j u ∧
      ∀ (op : Value) (key : Word) (t : Nat),
        (op = .literal key ∨
          ∃ a, op = .address a ∧ key = if a = 0xFFFD#16 then w else s.readCell a) →
        s.labelIndex key = some t →
        (j = .bne op → Sys2Proof.core.run 2 s =
          .next { u with pc := if w = 0#16 then t else s.pc + 2 }) ∧
        (j = .beq op → Sys2Proof.core.run 2 s =
          .next { u with pc := if w = 1#16 then t else s.pc + 2 })

/-- R134, R130, R168: a call of a label whose code returns at once comes back to the instruction after
the JMP with the state otherwise as it was. -/
def Obligations.CallAndReturnResumeAfterTheJump : Prop :=
  ∀ (s : State) (op lop : Value) (j : Nat), s.executing →
    s.program[s.pc]? = some (.jmp op) → s.labelIndex (s.resolve op) = some j →
    s.program[j]? = some (.lab lop) → s.program[j + 1]? = some .rtn →
    Config.callStackDepth ≠ some s.callStack.length →
    Sys2Proof.core.run 3 s = .next { s with pc := s.pc + 1 }

/-- R98, R159, R172: a run that waits at a CIN the host never answers stays where it is and does not
end, however long it runs. That the wait is a step that changes nothing is the model's (log 3). -/
def Obligations.UnansweredWaitNeverEnds : Prop :=
  ∀ s : State, s.waiting → ∀ k : Nat,
    Sys2Proof.core.run k s = .next s ∧ ¬ s.endsWithin k
end

