-- ==== Sys2Proof/Laws/PerInstr.lean ====
section
/-! SUPPORT. Families of lemmas with one lemma per constructor of Instr. -/

namespace Sys2Proof.Laws.RecordShape

/-- The record of an instruction: its length is the one its opcode byte calls for, its second byte is
that opcode byte, which is one of the 21, and an operand follows exactly when the variant has one
(30_encoding.md R55 to R59, R63). -/
def Statement (i : Instr) : Prop :=
  (encode i).length = recordLength i.opcode ∧ (encode i)[1]? = some i.opcode ∧
    knownOpcode i.opcode = true ∧ takesOperand i.opcode = i.operand.isSome

theorem out : Statement .out := by simp only [Statement]; decide
theorem cut : Statement .cut := by simp only [Statement]; decide
theorem cin : Statement .cin := by simp only [Statement]; decide
theorem dmp : Statement .dmp := by simp only [Statement]; decide
theorem rtn : Statement .rtn := by simp only [Statement]; decide
theorem sea (op : Value) : Statement (.sea op) := ⟨rfl, rfl, rfl, rfl⟩
theorem set (op : Value) : Statement (.set op) := ⟨rfl, rfl, rfl, rfl⟩
theorem add (op : Value) : Statement (.add op) := ⟨rfl, rfl, rfl, rfl⟩
theorem sub (op : Value) : Statement (.sub op) := ⟨rfl, rfl, rfl, rfl⟩
theorem mul (op : Value) : Statement (.mul op) := ⟨rfl, rfl, rfl, rfl⟩
theorem div (op : Value) : Statement (.div op) := ⟨rfl, rfl, rfl, rfl⟩
theorem lab (op : Value) : Statement (.lab op) := ⟨rfl, rfl, rfl, rfl⟩
theorem ceq (op : Value) : Statement (.ceq op) := ⟨rfl, rfl, rfl, rfl⟩
theorem gtn (op : Value) : Statement (.gtn op) := ⟨rfl, rfl, rfl, rfl⟩
theorem ltn (op : Value) : Statement (.ltn op) := ⟨rfl, rfl, rfl, rfl⟩
theorem gte (op : Value) : Statement (.gte op) := ⟨rfl, rfl, rfl, rfl⟩
theorem lte (op : Value) : Statement (.lte op) := ⟨rfl, rfl, rfl, rfl⟩
theorem bne (op : Value) : Statement (.bne op) := ⟨rfl, rfl, rfl, rfl⟩
theorem beq (op : Value) : Statement (.beq op) := ⟨rfl, rfl, rfl, rfl⟩
theorem jmp (op : Value) : Statement (.jmp op) := ⟨rfl, rfl, rfl, rfl⟩
theorem ext (op : Value) : Statement (.ext op) := ⟨rfl, rfl, rfl, rfl⟩

end Sys2Proof.Laws.RecordShape
end

