-- ==== Sys2Proof/Laws/Codec.lean ====
section
/-! SUPPORT. Small lemmas about the bytes of a record. -/

namespace Sys2Proof

/-- The operand value is the two bytes put together, the first one high (30_encoding.md R60). -/
theorem valueOf_eq_append (hi lo : Byte) : valueOf hi lo = hi ++ lo := by
  apply BitVec.eq_of_toNat_eq
  have hh := hi.isLt
  have hl := lo.isLt
  rw [BitVec.toNat_append, ← Nat.shiftLeft_add_eq_or_of_lt hl, Nat.shiftLeft_eq]
  simp only [valueOf, BitVec.toNat_ofNat]
  omega

/-- The high byte of a word is its bits 15 to 8. -/
theorem hiByte_eq_extract (w : Word) : hiByte w = w.extractLsb' 8 8 := by
  apply BitVec.eq_of_toNat_eq
  simp [hiByte, Nat.shiftRight_eq_div_pow]

/-- The low byte of a word is its bits 7 to 0. -/
theorem loByte_eq_extract (w : Word) : loByte w = w.extractLsb' 0 8 := by
  apply BitVec.eq_of_toNat_eq
  simp [loByte]

/-- A word is its two bytes put together again. -/
@[simp] theorem valueOf_hiByte_loByte (w : Word) : valueOf (hiByte w) (loByte w) = w := by
  apply BitVec.eq_of_toNat_eq
  have hw := w.isLt
  simp only [valueOf, hiByte, loByte, BitVec.toNat_ofNat]
  omega

/-- An opcode byte in 0x00 to 0x04 names a value-less variant. -/
theorem valueLess_isSome (op : Byte) : (valueLess op).isSome = !takesOperand op := by
  revert op; decide

/-- An opcode byte in 0x05 to 0x14 names a value-carrying variant. -/
theorem valueCarrying_isSome (op : Byte) :
    (valueCarrying op).isSome = (takesOperand op && knownOpcode op) := by
  revert op; decide

/-! ### The decoder, one lemma per case of a record -/

theorem decodeFrom_nil (off : Nat) : decodeFrom off [] = .ok [] := by
  simp only [decodeFrom]

theorem decodeFrom_one (off : Nat) (b : Byte) :
    decodeFrom off [b] = .error (.truncatedStream off) := by
  simp only [decodeFrom]

theorem decodeFrom_valueLess {off : Nat} {mode op : Byte} {rest : List Byte} {i : Instr}
    (h : valueLess op = some i) :
    decodeFrom off (mode :: op :: rest) = (decodeFrom (off + 2) rest).map (i :: ·) := by
  rw [decodeFrom.eq_def]; simp [h]

theorem decodeFrom_valueCarrying {off : Nat} {mode op hi lo : Byte} {rest : List Byte}
    {mk : Value → Instr} (h : valueLess op = none) (hm : valueCarrying op = some mk) :
    decodeFrom off (mode :: op :: hi :: lo :: rest) =
      (decodeFrom (off + 4) rest).map (mk (operandOf mode hi lo) :: ·) := by
  rw [decodeFrom.eq_def]; simp [h, hm]

theorem decodeFrom_unknown {off : Nat} {mode op hi lo : Byte} {rest : List Byte}
    (h : valueLess op = none) (hm : valueCarrying op = none) :
    decodeFrom off (mode :: op :: hi :: lo :: rest) = .error (.unknownOpcode op off) := by
  rw [decodeFrom.eq_def]; simp [h, hm]

theorem decodeFrom_short {off : Nat} {mode op : Byte} {rest : List Byte}
    (h : valueLess op = none) (hr : rest.length < 2) :
    decodeFrom off (mode :: op :: rest) = .error (.truncatedStream off) := by
  rw [decodeFrom.eq_def]
  match rest with
  | [] => simp [h]
  | [_] => simp [h]
  | _ :: _ :: _ => simp at hr

/-- Decoding a stream that starts with whole records decodes those, then the rest at its offset. -/
theorem decodeFrom_append (off : Nat) (before rest : List Byte) (p : Program)
    (h : decodeFrom off before = .ok p) :
    decodeFrom off (before ++ rest) = (decodeFrom (off + before.length) rest).map (p ++ ·) := by
  induction off, before using decodeFrom.induct generalizing p with
  | case1 off =>
    cases (decodeFrom_nil off).symm.trans h
    cases hr : decodeFrom off rest <;> simp [hr, Except.map]
  | case2 off b => cases (decodeFrom_one off b).symm.trans h
  | case3 off mode op tail i hl ih =>
    rw [decodeFrom_valueLess hl] at h
    cases ht : decodeFrom (off + 2) tail with
    | error e => rw [ht] at h; cases h
    | ok q =>
      rw [ht] at h
      cases h
      rw [List.cons_append, List.cons_append, decodeFrom_valueLess hl, ih q ht,
        show off + (mode :: op :: tail).length = off + 2 + tail.length by
          simp only [List.length_cons]; omega]
      cases decodeFrom (off + 2 + tail.length) rest <;> rfl
  | case4 off mode op hl hi lo tail mk hm ih =>
    rw [decodeFrom_valueCarrying hl hm] at h
    cases ht : decodeFrom (off + 4) tail with
    | error e => rw [ht] at h; cases h
    | ok q =>
      rw [ht] at h
      cases h
      simp only [List.cons_append]
      rw [decodeFrom_valueCarrying hl hm, ih q ht,
        show off + (mode :: op :: hi :: lo :: tail).length = off + 4 + tail.length by
          simp only [List.length_cons]; omega]
      cases decodeFrom (off + 4 + tail.length) rest <;> rfl
  | case5 off mode op hl hi lo tail hm => cases (decodeFrom_unknown hl hm).symm.trans h
  | case6 off mode op tail hl hr =>
    have hlen : tail.length < 2 := by
      match tail with
      | [] => simp
      | [_] => simp
      | a :: b :: c => exact absurd rfl (hr a b c)
    cases (decodeFrom_short hl hlen).symm.trans h

end Sys2Proof
end

