-- ==== Sys2Proof/Laws/Config.lean ====
section
/-! SUPPORT. What is known of the OPEN parameters: only what the spec says of them. -/

namespace Sys2Proof

/-- The depth is never 0: "either a finite positive number or unbounded" (10_state.md R29). -/
theorem callStackDepth_ne_zero : Config.callStackDepth ≠ some 0 := by
  unfold Config.callStackDepth
  cases Config.callStackExtra <;> simp

/-- `2^PC_BITS > PROGRAM_CAPACITY` (92_eei_decisions.md D14). -/
theorem programCapacity_lt_two_pow_pcBits : Config.programCapacity < 2 ^ Config.pcBits :=
  lt_of_lt_of_le (Nat.lt_log2_self (n := Config.programCapacity))
    (Nat.pow_le_pow_right (by decide) (Nat.le_add_right _ _))

end Sys2Proof
end

