-- ==== Sys2Proof/Laws/State.lean ====
section
/-! SUPPORT. One lemma per field per update of State, and how each field's reader sees an update, so
that no later proof unfolds a record update. -/

namespace Sys2Proof.Machine

variable (s : State)

/-! ### State.writeCell -/

@[simp] theorem State.writeCell_mem (a v : Word) : (s.writeCell a v).mem = Memory.write s.mem a v := rfl
@[simp] theorem State.writeCell_program (a v : Word) : (s.writeCell a v).program = s.program := rfl
@[simp] theorem State.writeCell_pc (a v : Word) : (s.writeCell a v).pc = s.pc := rfl
@[simp] theorem State.writeCell_labels (a v : Word) : (s.writeCell a v).labels = s.labels := rfl
@[simp] theorem State.writeCell_callStack (a v : Word) : (s.writeCell a v).callStack = s.callStack := rfl
@[simp] theorem State.writeCell_status (a v : Word) : (s.writeCell a v).status = s.status := rfl
@[simp] theorem State.writeCell_output (a v : Word) : (s.writeCell a v).output = s.output := rfl
@[simp] theorem State.writeCell_diagnostic (a v : Word) : (s.writeCell a v).diagnostic = s.diagnostic := rfl
@[simp] theorem State.writeCell_input (a v : Word) : (s.writeCell a v).input = s.input := rfl
@[simp] theorem State.writeCell_loader (a v : Word) : (s.writeCell a v).loader = s.loader := rfl

/-! ### State.writeTarget -/

@[simp] theorem State.writeTarget_mem (v : Word) : (s.writeTarget v).mem = Memory.write s.mem s.ar v := rfl
@[simp] theorem State.writeTarget_program (v : Word) : (s.writeTarget v).program = s.program := rfl
@[simp] theorem State.writeTarget_pc (v : Word) : (s.writeTarget v).pc = s.pc := rfl
@[simp] theorem State.writeTarget_labels (v : Word) : (s.writeTarget v).labels = s.labels := rfl
@[simp] theorem State.writeTarget_callStack (v : Word) : (s.writeTarget v).callStack = s.callStack := rfl
@[simp] theorem State.writeTarget_status (v : Word) : (s.writeTarget v).status = s.status := rfl
@[simp] theorem State.writeTarget_output (v : Word) : (s.writeTarget v).output = s.output := rfl
@[simp] theorem State.writeTarget_diagnostic (v : Word) : (s.writeTarget v).diagnostic = s.diagnostic := rfl
@[simp] theorem State.writeTarget_input (v : Word) : (s.writeTarget v).input = s.input := rfl
@[simp] theorem State.writeTarget_loader (v : Word) : (s.writeTarget v).loader = s.loader := rfl

/-! ### State.writeFlag -/

@[simp] theorem State.writeFlag_mem (b : Bool) : (s.writeFlag b).mem = Memory.write s.mem Config.flagCell (flagOf b) := rfl
@[simp] theorem State.writeFlag_program (b : Bool) : (s.writeFlag b).program = s.program := rfl
@[simp] theorem State.writeFlag_pc (b : Bool) : (s.writeFlag b).pc = s.pc := rfl
@[simp] theorem State.writeFlag_labels (b : Bool) : (s.writeFlag b).labels = s.labels := rfl
@[simp] theorem State.writeFlag_callStack (b : Bool) : (s.writeFlag b).callStack = s.callStack := rfl
@[simp] theorem State.writeFlag_status (b : Bool) : (s.writeFlag b).status = s.status := rfl
@[simp] theorem State.writeFlag_output (b : Bool) : (s.writeFlag b).output = s.output := rfl
@[simp] theorem State.writeFlag_diagnostic (b : Bool) : (s.writeFlag b).diagnostic = s.diagnostic := rfl
@[simp] theorem State.writeFlag_input (b : Bool) : (s.writeFlag b).input = s.input := rfl
@[simp] theorem State.writeFlag_loader (b : Bool) : (s.writeFlag b).loader = s.loader := rfl

/-! ### State.push -/

@[simp] theorem State.push_mem (i : Nat) : (s.push i).mem = s.mem := rfl
@[simp] theorem State.push_program (i : Nat) : (s.push i).program = s.program := rfl
@[simp] theorem State.push_pc (i : Nat) : (s.push i).pc = s.pc := rfl
@[simp] theorem State.push_labels (i : Nat) : (s.push i).labels = s.labels := rfl
@[simp] theorem State.push_callStack (i : Nat) : (s.push i).callStack = i :: s.callStack := rfl
@[simp] theorem State.push_status (i : Nat) : (s.push i).status = s.status := rfl
@[simp] theorem State.push_output (i : Nat) : (s.push i).output = s.output := rfl
@[simp] theorem State.push_diagnostic (i : Nat) : (s.push i).diagnostic = s.diagnostic := rfl
@[simp] theorem State.push_input (i : Nat) : (s.push i).input = s.input := rfl
@[simp] theorem State.push_loader (i : Nat) : (s.push i).loader = s.loader := rfl

/-! ### State.popped -/

@[simp] theorem State.popped_mem : s.popped.mem = s.mem := rfl
@[simp] theorem State.popped_program : s.popped.program = s.program := rfl
@[simp] theorem State.popped_pc : s.popped.pc = s.pc := rfl
@[simp] theorem State.popped_labels : s.popped.labels = s.labels := rfl
@[simp] theorem State.popped_callStack : s.popped.callStack = s.callStack.tail := rfl
@[simp] theorem State.popped_status : s.popped.status = s.status := rfl
@[simp] theorem State.popped_output : s.popped.output = s.output := rfl
@[simp] theorem State.popped_diagnostic : s.popped.diagnostic = s.diagnostic := rfl
@[simp] theorem State.popped_input : s.popped.input = s.input := rfl
@[simp] theorem State.popped_loader : s.popped.loader = s.loader := rfl

/-! ### State.emit -/

@[simp] theorem State.emit_mem (t : OutToken) : (s.emit t).mem = s.mem := rfl
@[simp] theorem State.emit_program (t : OutToken) : (s.emit t).program = s.program := rfl
@[simp] theorem State.emit_pc (t : OutToken) : (s.emit t).pc = s.pc := rfl
@[simp] theorem State.emit_labels (t : OutToken) : (s.emit t).labels = s.labels := rfl
@[simp] theorem State.emit_callStack (t : OutToken) : (s.emit t).callStack = s.callStack := rfl
@[simp] theorem State.emit_status (t : OutToken) : (s.emit t).status = s.status := rfl
@[simp] theorem State.emit_output (t : OutToken) : (s.emit t).output = s.output ++ [t] := rfl
@[simp] theorem State.emit_diagnostic (t : OutToken) : (s.emit t).diagnostic = s.diagnostic := rfl
@[simp] theorem State.emit_input (t : OutToken) : (s.emit t).input = s.input := rfl
@[simp] theorem State.emit_loader (t : OutToken) : (s.emit t).loader = s.loader := rfl

/-! ### State.emitDiag -/

@[simp] theorem State.emitDiag_mem (t : DiagToken) : (s.emitDiag t).mem = s.mem := rfl
@[simp] theorem State.emitDiag_program (t : DiagToken) : (s.emitDiag t).program = s.program := rfl
@[simp] theorem State.emitDiag_pc (t : DiagToken) : (s.emitDiag t).pc = s.pc := rfl
@[simp] theorem State.emitDiag_labels (t : DiagToken) : (s.emitDiag t).labels = s.labels := rfl
@[simp] theorem State.emitDiag_callStack (t : DiagToken) : (s.emitDiag t).callStack = s.callStack := rfl
@[simp] theorem State.emitDiag_status (t : DiagToken) : (s.emitDiag t).status = s.status := rfl
@[simp] theorem State.emitDiag_output (t : DiagToken) : (s.emitDiag t).output = s.output := rfl
@[simp] theorem State.emitDiag_diagnostic (t : DiagToken) : (s.emitDiag t).diagnostic = s.diagnostic ++ [t] := rfl
@[simp] theorem State.emitDiag_input (t : DiagToken) : (s.emitDiag t).input = s.input := rfl
@[simp] theorem State.emitDiag_loader (t : DiagToken) : (s.emitDiag t).loader = s.loader := rfl

/-! ### State.inputTaken -/

@[simp] theorem State.inputTaken_mem : s.inputTaken.mem = s.mem := rfl
@[simp] theorem State.inputTaken_program : s.inputTaken.program = s.program := rfl
@[simp] theorem State.inputTaken_pc : s.inputTaken.pc = s.pc := rfl
@[simp] theorem State.inputTaken_labels : s.inputTaken.labels = s.labels := rfl
@[simp] theorem State.inputTaken_callStack : s.inputTaken.callStack = s.callStack := rfl
@[simp] theorem State.inputTaken_status : s.inputTaken.status = s.status := rfl
@[simp] theorem State.inputTaken_output : s.inputTaken.output = s.output := rfl
@[simp] theorem State.inputTaken_diagnostic : s.inputTaken.diagnostic = s.diagnostic := rfl
@[simp] theorem State.inputTaken_input : s.inputTaken.input = s.input.tail := rfl
@[simp] theorem State.inputTaken_loader : s.inputTaken.loader = s.loader := rfl

/-! ### State.supply -/

@[simp] theorem State.supply_mem (c : Char) : (s.supply c).mem = s.mem := rfl
@[simp] theorem State.supply_program (c : Char) : (s.supply c).program = s.program := rfl
@[simp] theorem State.supply_pc (c : Char) : (s.supply c).pc = s.pc := rfl
@[simp] theorem State.supply_labels (c : Char) : (s.supply c).labels = s.labels := rfl
@[simp] theorem State.supply_callStack (c : Char) : (s.supply c).callStack = s.callStack := rfl
@[simp] theorem State.supply_status (c : Char) : (s.supply c).status = s.status := rfl
@[simp] theorem State.supply_output (c : Char) : (s.supply c).output = s.output := rfl
@[simp] theorem State.supply_diagnostic (c : Char) : (s.supply c).diagnostic = s.diagnostic := rfl
@[simp] theorem State.supply_input (c : Char) : (s.supply c).input = s.input ++ [c] := rfl
@[simp] theorem State.supply_loader (c : Char) : (s.supply c).loader = s.loader := rfl

/-! ### State.setPc -/

@[simp] theorem State.setPc_mem (t : Nat) : (s.setPc t).mem = s.mem := rfl
@[simp] theorem State.setPc_program (t : Nat) : (s.setPc t).program = s.program := rfl
@[simp] theorem State.setPc_pc (t : Nat) : (s.setPc t).pc = t := rfl
@[simp] theorem State.setPc_labels (t : Nat) : (s.setPc t).labels = s.labels := rfl
@[simp] theorem State.setPc_callStack (t : Nat) : (s.setPc t).callStack = s.callStack := rfl
@[simp] theorem State.setPc_status (t : Nat) : (s.setPc t).status = s.status := rfl
@[simp] theorem State.setPc_output (t : Nat) : (s.setPc t).output = s.output := rfl
@[simp] theorem State.setPc_diagnostic (t : Nat) : (s.setPc t).diagnostic = s.diagnostic := rfl
@[simp] theorem State.setPc_input (t : Nat) : (s.setPc t).input = s.input := rfl
@[simp] theorem State.setPc_loader (t : Nat) : (s.setPc t).loader = s.loader := rfl

/-! ### State.halt -/

@[simp] theorem State.halt_mem (c : Word) : (s.halt c).mem = s.mem := rfl
@[simp] theorem State.halt_program (c : Word) : (s.halt c).program = s.program := rfl
@[simp] theorem State.halt_pc (c : Word) : (s.halt c).pc = s.pc := rfl
@[simp] theorem State.halt_labels (c : Word) : (s.halt c).labels = s.labels := rfl
@[simp] theorem State.halt_callStack (c : Word) : (s.halt c).callStack = s.callStack := rfl
@[simp] theorem State.halt_status (c : Word) : (s.halt c).status = .halted c := rfl
@[simp] theorem State.halt_output (c : Word) : (s.halt c).output = s.output := rfl
@[simp] theorem State.halt_diagnostic (c : Word) : (s.halt c).diagnostic = s.diagnostic := rfl
@[simp] theorem State.halt_input (c : Word) : (s.halt c).input = s.input := rfl
@[simp] theorem State.halt_loader (c : Word) : (s.halt c).loader = s.loader := rfl

/-! ### State.raise -/

@[simp] theorem State.raise_mem (e : RuntimeError) : (s.raise e).mem = s.mem := rfl
@[simp] theorem State.raise_program (e : RuntimeError) : (s.raise e).program = s.program := rfl
@[simp] theorem State.raise_pc (e : RuntimeError) : (s.raise e).pc = s.pc := rfl
@[simp] theorem State.raise_labels (e : RuntimeError) : (s.raise e).labels = s.labels := rfl
@[simp] theorem State.raise_callStack (e : RuntimeError) : (s.raise e).callStack = s.callStack := rfl
@[simp] theorem State.raise_status (e : RuntimeError) : (s.raise e).status = .faulted e := rfl
@[simp] theorem State.raise_output (e : RuntimeError) : (s.raise e).output = s.output := rfl
@[simp] theorem State.raise_diagnostic (e : RuntimeError) : (s.raise e).diagnostic = s.diagnostic := rfl
@[simp] theorem State.raise_input (e : RuntimeError) : (s.raise e).input = s.input := rfl
@[simp] theorem State.raise_loader (e : RuntimeError) : (s.raise e).loader = s.loader := rfl

/-! ### Reading a cell after an update that leaves memory alone -/

@[simp] theorem State.push_readCell (i : Nat) (x : Word) : (s.push i).readCell x = s.readCell x := rfl
@[simp] theorem State.push_ar (i : Nat) : (s.push i).ar = s.ar := rfl
@[simp] theorem State.push_flag (i : Nat) : (s.push i).flag = s.flag := rfl
@[simp] theorem State.push_resolve (i : Nat) (op : Value) : (s.push i).resolve op = s.resolve op := by
  cases op <;> rfl
@[simp] theorem State.popped_readCell (x : Word) : s.popped.readCell x = s.readCell x := rfl
@[simp] theorem State.popped_ar : s.popped.ar = s.ar := rfl
@[simp] theorem State.popped_flag : s.popped.flag = s.flag := rfl
@[simp] theorem State.popped_resolve (op : Value) : s.popped.resolve op = s.resolve op := by
  cases op <;> rfl
@[simp] theorem State.emit_readCell (t : OutToken) (x : Word) : (s.emit t).readCell x = s.readCell x := rfl
@[simp] theorem State.emit_ar (t : OutToken) : (s.emit t).ar = s.ar := rfl
@[simp] theorem State.emit_flag (t : OutToken) : (s.emit t).flag = s.flag := rfl
@[simp] theorem State.emit_resolve (t : OutToken) (op : Value) : (s.emit t).resolve op = s.resolve op := by
  cases op <;> rfl
@[simp] theorem State.emitDiag_readCell (t : DiagToken) (x : Word) : (s.emitDiag t).readCell x = s.readCell x := rfl
@[simp] theorem State.emitDiag_ar (t : DiagToken) : (s.emitDiag t).ar = s.ar := rfl
@[simp] theorem State.emitDiag_flag (t : DiagToken) : (s.emitDiag t).flag = s.flag := rfl
@[simp] theorem State.emitDiag_resolve (t : DiagToken) (op : Value) : (s.emitDiag t).resolve op = s.resolve op := by
  cases op <;> rfl
@[simp] theorem State.inputTaken_readCell (x : Word) : s.inputTaken.readCell x = s.readCell x := rfl
@[simp] theorem State.inputTaken_ar : s.inputTaken.ar = s.ar := rfl
@[simp] theorem State.inputTaken_flag : s.inputTaken.flag = s.flag := rfl
@[simp] theorem State.inputTaken_resolve (op : Value) : s.inputTaken.resolve op = s.resolve op := by
  cases op <;> rfl
@[simp] theorem State.supply_readCell (c : Char) (x : Word) : (s.supply c).readCell x = s.readCell x := rfl
@[simp] theorem State.supply_ar (c : Char) : (s.supply c).ar = s.ar := rfl
@[simp] theorem State.supply_flag (c : Char) : (s.supply c).flag = s.flag := rfl
@[simp] theorem State.supply_resolve (c : Char) (op : Value) : (s.supply c).resolve op = s.resolve op := by
  cases op <;> rfl
@[simp] theorem State.setPc_readCell (t : Nat) (x : Word) : (s.setPc t).readCell x = s.readCell x := rfl
@[simp] theorem State.setPc_ar (t : Nat) : (s.setPc t).ar = s.ar := rfl
@[simp] theorem State.setPc_flag (t : Nat) : (s.setPc t).flag = s.flag := rfl
@[simp] theorem State.setPc_resolve (t : Nat) (op : Value) : (s.setPc t).resolve op = s.resolve op := by
  cases op <;> rfl
@[simp] theorem State.halt_readCell (c : Word) (x : Word) : (s.halt c).readCell x = s.readCell x := rfl
@[simp] theorem State.halt_ar (c : Word) : (s.halt c).ar = s.ar := rfl
@[simp] theorem State.halt_flag (c : Word) : (s.halt c).flag = s.flag := rfl
@[simp] theorem State.halt_resolve (c : Word) (op : Value) : (s.halt c).resolve op = s.resolve op := by
  cases op <;> rfl
@[simp] theorem State.raise_readCell (e : RuntimeError) (x : Word) : (s.raise e).readCell x = s.readCell x := rfl
@[simp] theorem State.raise_ar (e : RuntimeError) : (s.raise e).ar = s.ar := rfl
@[simp] theorem State.raise_flag (e : RuntimeError) : (s.raise e).flag = s.flag := rfl
@[simp] theorem State.raise_resolve (e : RuntimeError) (op : Value) : (s.raise e).resolve op = s.resolve op := by
  cases op <;> rfl

/-! ### State.start and State.reset -/

@[simp] theorem State.start_mem (p : Program) : (State.start p).mem = [] := rfl
@[simp] theorem State.start_program (p : Program) : (State.start p).program = p := rfl
@[simp] theorem State.start_pc (p : Program) : (State.start p).pc = 0 := rfl
@[simp] theorem State.start_labels (p : Program) : (State.start p).labels = labelTable p := rfl
@[simp] theorem State.start_callStack (p : Program) : (State.start p).callStack = [] := rfl
@[simp] theorem State.start_status (p : Program) : (State.start p).status = .running := rfl
@[simp] theorem State.start_output (p : Program) : (State.start p).output = [] := rfl
@[simp] theorem State.start_diagnostic (p : Program) : (State.start p).diagnostic = [] := rfl
@[simp] theorem State.start_input (p : Program) : (State.start p).input = [] := rfl
@[simp] theorem State.start_loader (p : Program) : (State.start p).loader = .loaded := rfl

/-- Reset is the start of a run of the empty Program. -/
theorem State.reset_eq_start : State.reset = State.start [] := rfl

end Sys2Proof.Machine
end

