-- ==== Sys2Proof/Laws/Table.lean ====
section
/-! SUPPORT. Sorted tables and data memory: read after write, a write leaves every other cell alone,
and every memory operation keeps the canonical form. The read laws hold of any list, canonical or
not. -/

namespace Sys2Proof.Machine

variable {β : Type}

/-! ### Reading a table -/

@[simp] theorem Table.find_nil (k : Nat) : Table.find k ([] : List (Nat × β)) = none := rfl

theorem Table.find_cons (k : Nat) (e : Nat × β) (rest : List (Nat × β)) :
    Table.find k (e :: rest) = if e.1 = k then some e.2 else Table.find k rest := rfl

theorem Table.find_erase_same (k : Nat) (t : List (Nat × β)) :
    Table.find k (Table.erase k t) = none := by
  induction t with
  | nil => rfl
  | cons e rest ih => by_cases h : e.1 = k <;> simp [Table.erase, Table.find_cons, h, ih]

theorem Table.find_erase_other {k j : Nat} (h : j ≠ k) (t : List (Nat × β)) :
    Table.find j (Table.erase k t) = Table.find j t := by
  induction t with
  | nil => rfl
  | cons e rest ih =>
    by_cases hk : e.1 = k
    · have hj : ¬ e.1 = j := fun hj => h (hj.symm.trans hk)
      simp [Table.erase, Table.find_cons, hk, ih, Ne.symm h]
    · simp [Table.erase, Table.find_cons, hk, ih]

theorem Table.find_insert_other {k j : Nat} (h : j ≠ k) (v : β) (t : List (Nat × β)) :
    Table.find j (Table.insert k v t) = Table.find j t := by
  induction t with
  | nil => simp [Table.insert, Table.find_cons, Ne.symm h]
  | cons e rest ih =>
    by_cases hk : k < e.1 <;> simp [Table.insert, Table.find_cons, hk, ih, Ne.symm h]

theorem Table.find_insert_same (k : Nat) (v : β) (t : List (Nat × β))
    (h : Table.find k t = none) : Table.find k (Table.insert k v t) = some v := by
  induction t with
  | nil => simp [Table.insert, Table.find_cons]
  | cons e rest ih =>
    by_cases he : e.1 = k
    · simp [Table.find_cons, he] at h
    · have hrest : Table.find k rest = none := by simpa [Table.find_cons, he] using h
      by_cases hk : k < e.1 <;> simp [Table.insert, Table.find_cons, hk, he, ih hrest]

/-- What a table that was set maps its key to. -/
@[simp] theorem Table.find_set_same (k : Nat) (v : β) (t : List (Nat × β)) :
    Table.find k (Table.set k v t) = some v :=
  Table.find_insert_same k v _ (Table.find_erase_same k t)

/-- Setting one key leaves every other key alone. -/
theorem Table.find_set_other {k j : Nat} (h : j ≠ k) (v : β) (t : List (Nat × β)) :
    Table.find j (Table.set k v t) = Table.find j t := by
  rw [Table.set, Table.find_insert_other h, Table.find_erase_other h]

/-! ### Which entries a table holds -/

theorem Table.mem_erase {k : Nat} {e : Nat × β} {t : List (Nat × β)} :
    e ∈ Table.erase k t ↔ e ∈ t ∧ e.1 ≠ k := by
  induction t with
  | nil => simp [Table.erase]
  | cons x rest ih =>
    by_cases hx : x.1 = k
    · simp only [Table.erase, hx, if_true, ih, List.mem_cons]
      constructor
      · exact fun h => ⟨.inr h.1, h.2⟩
      · rintro ⟨rfl | h, hk⟩
        · exact absurd hx hk
        · exact ⟨h, hk⟩
    · simp only [Table.erase, hx, if_false, List.mem_cons, ih]
      constructor
      · rintro (rfl | h)
        · exact ⟨.inl rfl, hx⟩
        · exact ⟨.inr h.1, h.2⟩
      · rintro ⟨rfl | h, hk⟩
        · exact .inl rfl
        · exact .inr ⟨h, hk⟩

theorem Table.mem_insert {k : Nat} {v : β} {e : Nat × β} {t : List (Nat × β)} :
    e ∈ Table.insert k v t ↔ e = (k, v) ∨ e ∈ t := by
  induction t with
  | nil => simp [Table.insert]
  | cons x rest ih =>
    by_cases hx : k < x.1
    · simp [Table.insert, hx]
    · simp only [Table.insert, hx, if_false, List.mem_cons, ih]
      tauto

/-- The keys rise strictly. -/
def Table.Rising (t : List (Nat × β)) : Prop := t.Pairwise (fun e f => e.1 < f.1)

theorem Table.rising_erase {k : Nat} {t : List (Nat × β)} (h : Table.Rising t) :
    Table.Rising (Table.erase k t) := by
  induction t with
  | nil => exact List.Pairwise.nil
  | cons x rest ih =>
    obtain ⟨hx, hrest⟩ := List.pairwise_cons.mp h
    by_cases hk : x.1 = k
    · simpa [Table.erase, hk] using ih hrest
    · simp only [Table.erase, hk, if_false]
      exact List.pairwise_cons.mpr ⟨fun e he => hx e (Table.mem_erase.mp he).1, ih hrest⟩

theorem Table.rising_insert {k : Nat} {v : β} {t : List (Nat × β)} (h : Table.Rising t)
    (hk : ∀ e ∈ t, e.1 ≠ k) : Table.Rising (Table.insert k v t) := by
  induction t with
  | nil => simp [Table.insert, Table.Rising]
  | cons x rest ih =>
    obtain ⟨hx, hrest⟩ := List.pairwise_cons.mp h
    by_cases hlt : k < x.1
    · simp only [Table.insert, hlt, if_true]
      refine List.pairwise_cons.mpr ⟨fun e he => ?_, h⟩
      rcases List.mem_cons.mp he with rfl | he
      · exact hlt
      · exact hlt.trans (hx e he)
    · simp only [Table.insert, hlt, if_false]
      have hgt : x.1 < k := lt_of_le_of_ne (not_lt.mp hlt) (hk x (List.mem_cons_self ..))
      refine List.pairwise_cons.mpr ⟨fun e he => ?_, ih hrest fun e he => hk e (List.mem_cons_of_mem _ he)⟩
      rcases Table.mem_insert.mp he with rfl | he
      · exact hgt
      · exact hx e he

/-- A set keeps the keys strictly rising. -/
theorem Table.rising_set {k : Nat} {v : β} {t : List (Nat × β)} (h : Table.Rising t) :
    Table.Rising (Table.set k v t) :=
  Table.rising_insert (Table.rising_erase h) fun _ he => (Table.mem_erase.mp he).2

/-! ### Data memory -/

/-- Memory reads are zero where nothing is listed. -/
@[simp] theorem Memory.read_nil (a : Word) : Memory.read [] a = 0#16 := rfl

/-- A read after a write to the same cell gives the value written. -/
@[simp] theorem Memory.read_write_same (m : Memory) (a v : Word) :
    Memory.read (Memory.write m a v) a = v := by
  unfold Memory.write Memory.read
  split
  · next h => rw [Table.find_erase_same, h]; rfl
  · simp

/-- A write leaves every other cell alone. -/
theorem Memory.read_write_other (m : Memory) {a b : Word} (h : b ≠ a) (v : Word) :
    Memory.read (Memory.write m a v) b = Memory.read m b := by
  have hn : b.toNat ≠ a.toNat := fun e => h (BitVec.eq_of_toNat_eq e)
  unfold Memory.write Memory.read
  split
  · rw [Table.find_erase_other hn]
  · rw [Table.find_set_other hn]

/-- What a cell reads as after a write. -/
theorem Memory.read_write (m : Memory) (a b v : Word) :
    Memory.read (Memory.write m a v) b = if b = a then v else Memory.read m b := by
  split
  · next h => rw [h, Memory.read_write_same]
  · next h => exact Memory.read_write_other m h v

/-- The canonical form, said as a proposition. -/
theorem Memory.wf_iff (m : Memory) :
    Memory.wf m = true ↔ (∀ e ∈ m, e.1 < 65536 ∧ e.2 ≠ 0#16) ∧ Table.Rising m := by
  simp only [Memory.wf, Table.Rising, List.pairwise_map, Bool.and_eq_true, List.all_eq_true,
    decide_eq_true_eq, bne_iff_ne]
  rfl

theorem Memory.wf_nil : Memory.wf [] = true := rfl

/-- Every memory operation keeps the canonical form: `Memory.write` is the only one that makes a new
memory. -/
theorem Memory.wf_write {m : Memory} (h : Memory.wf m = true) (a v : Word) :
    Memory.wf (Memory.write m a v) = true := by
  obtain ⟨hall, hr⟩ := (Memory.wf_iff m).mp h
  unfold Memory.write
  split
  · exact (Memory.wf_iff _).mpr
      ⟨fun e he => hall e (Table.mem_erase.mp he).1, Table.rising_erase hr⟩
  · next hv =>
    refine (Memory.wf_iff _).mpr ⟨fun e he => ?_, Table.rising_set hr⟩
    rcases Table.mem_insert.mp he with rfl | he
    · exact ⟨a.isLt, hv⟩
    · exact hall e (Table.mem_erase.mp he).1

/-- The memory at reset has the canonical form. -/
theorem State.reset_mem_wf : Memory.wf State.reset.mem = true := rfl

end Sys2Proof.Machine
end

