-- ==== Sys2Proof/Laws/Ops.lean ====
section
/-! SUPPORT. One lemma for each shared operation that says once everything it can do. -/

namespace Sys2Proof.Machine

/-! ### Cells -/

/-- What a cell reads as after `MemWrite`. -/
theorem State.readCell_writeCell (s : State) (a b v : Word) :
    (s.writeCell a v).readCell b = if b = a then v else s.readCell b :=
  Memory.read_write s.mem a b v

/-- `MemWrite` stores to its one cell only. -/
theorem State.writeCell_storedOnly (s : State) (a v : Word) :
    StoredOnly s (s.writeCell a v) a v :=
  ⟨Memory.read_write_same _ _ _, fun _ h => Memory.read_write_other _ h _⟩

/-- A state with the memory of a `MemWrite` has stored to that cell only. -/
theorem StoredOnly.of_mem {s t : State} {a v : Word} (h : t.mem = Memory.write s.mem a v) :
    StoredOnly s t a v := by
  refine ⟨?_, fun b hb => ?_⟩
  · rw [State.readCell, h, Memory.read_write_same]
  · rw [State.readCell, h, Memory.read_write_other _ hb, State.readCell]

/-- A dump lists 65,536 values. -/
theorem DiagToken.values_length (m : Memory) : (DiagToken.dump m).values.length = 65536 := by
  simp only [DiagToken.values, Memory.values, List.length_map, List.length_range, Config.memCells]

/-- The value a dump lists at index `a` is cell `a`. -/
theorem DiagToken.values_getElem (m : Memory) (a : Word) :
    (DiagToken.dump m).values[a.toNat]? = some (Memory.read m a) := by
  have ha : a.toNat < Config.memCells := a.isLt
  simp only [DiagToken.values, Memory.values, List.getElem?_map, List.getElem?_range ha,
    Option.map_some, BitVec.ofNat_toNat, BitVec.setWidth_eq]

/-! ### Label operand -/

/-- A resolved label operand is a label table entry of its key. -/
theorem State.resolveLabel_ok {s : State} {op : Value} {t : Nat} :
    s.resolveLabel op = .ok t ↔ s.labelIndex (s.resolve op) = some t := by
  unfold State.resolveLabel
  cases s.labelIndex (s.resolve op) <;> simp

/-- A label operand fails only with UndeclaredLabel of its key. -/
theorem State.resolveLabel_error {s : State} {op : Value} {e : RuntimeError} :
    s.resolveLabel op = .error e ↔
      s.labelIndex (s.resolve op) = none ∧ e = .undeclaredLabel (s.resolve op) := by
  unfold State.resolveLabel
  cases s.labelIndex (s.resolve op) <;> simp [eq_comm]

/-! ### Call stack -/

/-- A call stack is full exactly when the depth is finite and equals its length. -/
theorem State.callStackFull_iff (s : State) :
    s.callStackFull = true ↔ Config.callStackDepth = some s.callStack.length := by
  unfold State.callStackFull
  cases h : s.callStack with
  | nil => simpa using Sys2Proof.callStackDepth_ne_zero
  | cons r rest => simp

/-! ### Ends of instructions -/

variable (s e : State)

@[simp] theorem State.finish_next : s.finish e .next = .next (e.setPc (s.pc + 1)) := rfl
@[simp] theorem State.finish_goto (t : Nat) : s.finish e (.goto t) = .next (e.setPc t) := rfl
@[simp] theorem State.finish_ret (r : Nat) : s.finish e (.ret r) = .next (e.setPc (r + 1)) := rfl
@[simp] theorem State.finish_halt (c : Word) : s.finish e (.halt c) = .next (e.halt c) := rfl
@[simp] theorem State.finish_raise (x : RuntimeError) :
    s.finish e (.raise x) = .next (s.raise x) := rfl
@[simp] theorem State.finish_wait : s.finish e .wait = .next s := rfl

/-- However an instruction ends, there is a next state. -/
theorem State.finish_answers (d : Ending) : ∃ t, s.finish e d = .next t := by
  cases d <;> exact ⟨_, rfl⟩

/-! ### The shared shapes of meanings -/

variable {s}

/-- SET, ADD, SUB and MUL: the target cell gets the result, the pointer advances. -/
theorem State.combineTarget_eq (f : Word → Word → Word) (op : Value) :
    s.combineTarget f op =
      .next ((s.writeCell s.ar (f (s.readCell s.ar) (s.resolve op))).setPc (s.pc + 1)) := rfl

/-- The compares: the flag cell gets 1 or 0, the pointer advances. -/
theorem State.compareTarget_eq (pred : Word → Word → Bool) (op : Value) :
    s.compareTarget pred op =
      .next ((s.writeCell Config.flagCell
        (flagOf (pred (s.readCell s.ar) (s.resolve op)))).setPc (s.pc + 1)) := rfl

/-- BNE and BEQ: everything they can do. -/
theorem State.branchIf_eq (taken : Bool) (op : Value) :
    s.branchIf taken op =
      .next (match s.labelIndex (s.resolve op) with
        | none => s.raise (.undeclaredLabel (s.resolve op))
        | some t => s.setPc (if taken then t else s.pc + 1)) := by
  unfold State.branchIf State.resolveLabel
  cases s.labelIndex (s.resolve op) <;> cases taken <;> rfl

/-- RTN: everything it can do. -/
theorem execRtn_eq :
    execRtn s = .next (match s.callStack with
      | [] => s.raise .emptyCallStack
      | r :: _ => s.popped.setPc (r + 1)) := by
  unfold execRtn
  cases s.callStack <;> rfl

/-- JMP: everything it can do. -/
theorem execJmp_eq (op : Value) :
    execJmp op s = .next (match s.labelIndex (s.resolve op) with
      | none => s.raise (.undeclaredLabel (s.resolve op))
      | some t => if s.callStackFull then s.raise .callStackOverflow
                  else (s.push s.pc).setPc t) := by
  unfold execJmp State.resolveLabel
  cases s.labelIndex (s.resolve op) with
  | none => rfl
  | some t => cases h : s.callStackFull <;> simp

/-- DIV: everything it can do. -/
theorem execDiv_eq (op : Value) :
    execDiv op s = .next (if s.resolve op = 0#16 then s.raise .divisionByZero
      else (s.writeCell s.ar (aluDiv (s.readCell s.ar) (s.resolve op))).setPc (s.pc + 1)) := by
  unfold execDiv
  split <;> rfl

/-- CUT: everything it can do. -/
theorem execCut_eq :
    execCut s = .next (if isScalarValue (s.readCell s.ar)
      then (s.emit (.char (charOf (s.readCell s.ar)))).setPc (s.pc + 1)
      else s.raise (.invalidCharacter (s.readCell s.ar))) := by
  unfold execCut State.targetValue
  split <;> rfl

/-- CIN: everything it can do. -/
theorem execCin_eq :
    execCin s = .next (match s.input with
      | [] => s
      | c :: _ => ((s.inputTaken.writeCell s.ar (Config.cinStore c)).emit
          (.char c)).setPc (s.pc + 1)) := by
  unfold execCin
  cases s.input <;> rfl

/-! ### The main loop and the step -/

/-- One step in the main loop at an instruction is that instruction. -/
theorem step_of_runsAt {i : Instr} (h : s.runsAt i) : step s = exec i s := by
  obtain ⟨⟨hl, hs⟩, hf⟩ := h
  simp [step, State.iterate, State.fetch, hl, hs, hf]

/-- Everything one step can do. -/
theorem step_cases (s : State) :
    (∃ src, s.loader = .pending src ∧ step s = .next (s.load src)) ∨
    (∃ x, s.loader = .failed x ∧ step s = .next s) ∨
    (s.loader = .loaded ∧ s.status ≠ .running ∧ step s = .next s) ∨
    (s.executing ∧ s.program.length ≤ s.pc ∧ step s = .next (s.halt 0#16)) ∨
    (∃ i, s.runsAt i ∧ step s = exec i s) := by
  cases hl : s.loader with
  | pending src => exact .inl ⟨src, rfl, by simp [step, hl]⟩
  | failed x => exact .inr (.inl ⟨x, rfl, by simp [step, hl]⟩)
  | loaded =>
    cases hs : s.status with
    | halted c => exact .inr (.inr (.inl ⟨rfl, nofun, by simp [step, State.iterate, hl, hs]⟩))
    | faulted x => exact .inr (.inr (.inl ⟨rfl, nofun, by simp [step, State.iterate, hl, hs]⟩))
    | running =>
      cases hf : s.program[s.pc]? with
      | none =>
        exact .inr (.inr (.inr (.inl ⟨⟨hl, hs⟩, by simpa using hf,
          by simp [step, State.iterate, State.fetch, hl, hs, hf]⟩)))
      | some i =>
        exact .inr (.inr (.inr (.inr ⟨i, ⟨⟨hl, hs⟩, hf⟩, step_of_runsAt ⟨⟨hl, hs⟩, hf⟩⟩)))

/-- Everything the load phase can do. -/
theorem State.load_cases (s : State) (src : Source) :
    (∃ x, loadProgram src = .error x ∧ s.load src = { s with loader := .failed x }) ∨
    (∃ p, loadProgram src = .ok p ∧ s.load src = { State.start p with input := s.input }) := by
  unfold State.load
  cases loadProgram src with
  | error x => exact .inl ⟨x, rfl, rfl⟩
  | ok p => exact .inr ⟨p, rfl, rfl⟩

/-- A Program that loads fits the capacity. -/
theorem loadProgram_fits {src : Source} {p : Program} (h : loadProgram src = .ok p) :
    readSource src = .ok p ∧ p.length ≤ Config.programCapacity := by
  unfold loadProgram at h
  cases hr : readSource src with
  | error x => simp [hr] at h
  | ok q =>
    simp only [hr] at h
    split at h
    · next hf => cases h; exact ⟨rfl, by simpa [Program.fits] using hf⟩
    · cases h

end Sys2Proof.Machine
end

