-- ==== Sys2Proof/Tests/Slice0.lean ====
section
/-! SUPPORT. Tests: the well-formedness checks refuse what is ill-formed, a word of every row decodes,
one step of every instruction on the spec's own vectors (spec/95_test_vectors.md), and for each
statement with hypotheses a state and operands that meet them. -/

namespace Sys2Proof.Tests

open Sys2Proof.Machine

/-! ### Well-formedness smoke -/

/-- 0x15 names no variant (30_encoding.md R57). -/
theorem test_knownOpcode_refuses : knownOpcode 0x15#8 = false ∧ knownOpcode 0x14#8 = true := by decide

/-- An F1 opcode with no value, and an F0 opcode with one (30_encoding.md R59). -/
theorem test_record_refuses_wrong_length :
    Record.wellFormed [0x00#8, 0x05#8] = false ∧
    Record.wellFormed [0x00#8, 0x04#8, 0x00#8, 0x00#8] = false ∧
    Record.wellFormed [0x00#8, 0x15#8, 0x00#8, 0x00#8] = false := by decide

/-- `01 06 00 05` and `FF 00` are the non-canonical inputs of 95_test_vectors.md section 2.1. -/
theorem test_canonical_refuses :
    Stream.canonical [0x01#8, 0x06#8, 0x00#8, 0x05#8] = false ∧
    Stream.canonical [0xFF#8, 0x00#8] = false ∧ Stream.canonical [0x10#8, 0x00#8] = false ∧
    Stream.canonical [0x00#8, 0x05#8, 0x00#8] = false := by decide

/-- Two instructions do not fit a capacity of one (30_encoding.md R69). -/
theorem test_fits_refuses : Program.fits 1 [.out, .out] = false := by decide

/-- A listed zero, falling indices and an index past the last cell are not canonical memory. -/
theorem test_memory_wf_refuses :
    Memory.wf [(3, 0#16)] = false ∧ Memory.wf [(3, 1#16), (2, 1#16)] = false ∧
    Memory.wf [(65536, 1#16)] = false := by decide

/-! ### Decoding: one word of every row, written out from its encoding (30_encoding.md R55, R58) -/

theorem test_decode_out : decodeTableWord 16 0x0000 = some (.out) := by decide
theorem test_decode_cut : decodeTableWord 16 0x0001 = some (.cut) := by decide
theorem test_decode_cin : decodeTableWord 16 0x0002 = some (.cin) := by decide
theorem test_decode_dmp : decodeTableWord 16 0xFF03 = some (.dmp) := by decide
theorem test_decode_rtn : decodeTableWord 16 0x0004 = some (.rtn) := by decide
theorem test_decode_sea : decodeTableWord 32 0x00051234 = some (.sea (.literal 0x1234#16)) := by decide
theorem test_decode_set : decodeTableWord 32 0x10060005 = some (.set (.address 0x0005#16)) := by decide
theorem test_decode_add : decodeTableWord 32 0x00070001 = some (.add (.literal 0x0001#16)) := by decide
theorem test_decode_sub : decodeTableWord 32 0x0108FFFE = some (.sub (.address 0xFFFE#16)) := by decide
theorem test_decode_mul : decodeTableWord 32 0x00090100 = some (.mul (.literal 0x0100#16)) := by decide
theorem test_decode_div : decodeTableWord 32 0x100A0200 = some (.div (.address 0x0200#16)) := by decide
theorem test_decode_lab : decodeTableWord 32 0x000B0001 = some (.lab (.literal 0x0001#16)) := by decide
theorem test_decode_ceq : decodeTableWord 32 0x000C8000 = some (.ceq (.literal 0x8000#16)) := by decide
theorem test_decode_gtn : decodeTableWord 32 0x100D00FF = some (.gtn (.address 0x00FF#16)) := by decide
theorem test_decode_ltn : decodeTableWord 32 0x000EFF00 = some (.ltn (.literal 0xFF00#16)) := by decide
theorem test_decode_gte : decodeTableWord 32 0x800F0003 = some (.gte (.address 0x0003#16)) := by decide
theorem test_decode_lte : decodeTableWord 32 0x00100004 = some (.lte (.literal 0x0004#16)) := by decide
theorem test_decode_bne : decodeTableWord 32 0x00110001 = some (.bne (.literal 0x0001#16)) := by decide
theorem test_decode_beq : decodeTableWord 32 0x001200AA = some (.beq (.literal 0x00AA#16)) := by decide
theorem test_decode_jmp : decodeTableWord 32 0x10130000 = some (.jmp (.address 0x0000#16)) := by decide
theorem test_decode_ext : decodeTableWord 32 0xFF14FFFF = some (.ext (.address 0xFFFF#16)) := by decide

/-- 0x15 and 0xFF with a value are refused by name (95_test_vectors.md section 2.1). -/
theorem test_decode_refuses_unknown :
    decodeProgram [0x00#8, 0x15#8, 0x00#8, 0x00#8] = .error (.unknownOpcode 0x15#8 0) ∧
    decodeProgram [0x00#8, 0x0B#8, 0x00#8, 0x01#8, 0x00#8, 0x16#8, 0x00#8, 0x00#8] =
      .error (.unknownOpcode 0x16#8 4) := by decide

/-- `00 15`, `00 15 00` and the second record of `00 04 00` are truncated (95_test_vectors.md section
2.1). -/
theorem test_decode_refuses_truncated :
    decodeProgram [0x00#8, 0x15#8] = .error (.truncatedStream 0) ∧
    decodeProgram [0x00#8, 0x15#8, 0x00#8] = .error (.truncatedStream 0) ∧
    decodeProgram [0x00#8, 0x04#8, 0x00#8] = .error (.truncatedStream 2) := by decide

/-- `EXT 0x0000` then `RTN`, encoded as 95_test_vectors.md section 2.1 gives them. -/
theorem test_encode :
    encodeProgram [.ext (.literal 0#16), .rtn, .set (.address 0x1234#16)] =
      [0x00#8, 0x14#8, 0x00#8, 0x00#8, 0x00#8, 0x04#8, 0x10#8, 0x06#8, 0x12#8, 0x34#8] := by decide

/-- A line with a comment, a blank line and both number formats (30_encoding.md R76 to R79). -/
theorem test_assemble :
    assemble ['S', 'E', 'A', ' ', '0', 'x', '1', 'f', ' ', ';', 'x', '\n', '\n', '\t',
      'B', 'N', 'E', ' ', '*', '0', 'b', '1', '1'] =
      .ok [.sea (.literal 0x1F#16), .bne (.address 3#16)] := by decide

/-- A lower-case mnemonic, a decimal operand, no operand, and a value above 0xFFFF (30_encoding.md R77
to R80). -/
theorem test_assemble_refuses :
    assemble ['o', 'u', 't'] = .error (.unknownMnemonic ['o', 'u', 't']) ∧
    assemble ['S', 'E', 'T', ' ', '5'] = .error (.unknownNumberFormat ['S', 'E', 'T', ' ', '5']) ∧
    assemble ['S', 'E', 'T'] = .error (.missingOperand ['S', 'E', 'T']) ∧
    assemble ['S', 'E', 'T', ' ', '0', 'x', '1', '0', '0', '0', '0'] =
      .error (.invalidNumber ['S', 'E', 'T', ' ', '0', 'x', '1', '0', '0', '0', '0']) := by decide

/-! ### One step of every instruction -/

/-- A state at the start of a run of `p` with the given cells. -/
def withCells (p : Program) (cells : Memory) : State := { State.start p with mem := cells }

/-- The state of 95_test_vectors.md section 2.2: `AR` = 0x0100, `mem[0x0100]` = `x`, `mem[0x0200]` =
`w`. -/
def dataState (x w : Word) : State :=
  ((withCells [] [(0xFFFE, 0x0100#16)]).writeCell 0x0100#16 x).writeCell 0x0200#16 w

/-- The next state of an answer. -/
def after : Answer → Option State
  | .next t => some t
  | .fault _ => none
  | .refused _ => none

/-- The target cell 0x0100 after an instruction. -/
def targetAfter (i : Instr) (x w : Word) : Option Word :=
  (after (exec i (dataState x w))).map fun t => t.readCell 0x0100#16

/-- The flag after a compare of `mem[0]` = `x`, as 95_test_vectors.md section 2.3 has it. -/
def flagAfter (i : Instr) (x : Word) : Option Word :=
  (after (exec i ((withCells [] []).writeCell 0#16 x))).map fun t => t.readCell 0xFFFD#16

/-- 95_test_vectors.md section 2.4: the target cell is the address register. -/
theorem test_out :
    (after (exec .out (withCells [] [(0xFFFE, 0xFFFE#16)]))).map (·.output) = some [.num 65534#16] := by
  decide

/-- W7: 0x41 is emitted as A. -/
theorem test_cut :
    (after (exec .cut (withCells [] [(0, 0x41#16)]))).map (·.output) = some [.char 'A'] := by
  decide

/-- 95_test_vectors.md section 2.4: 0xD800 faults and nothing is emitted. -/
theorem test_cut_surrogate :
    (after (exec .cut (withCells [] [(0, 0xD800#16)]))).map (fun t => (t.status, t.output, t.pc)) =
      some (.faulted (.invalidCharacter 0xD800#16), [], 0) := by
  decide

/-- 95_test_vectors.md section 2.4: with `AR` = 7 and B supplied. -/
theorem test_cin :
    (after (exec .cin { withCells [] [(0xFFFE, 7#16)] with input := ['B'] })).map
      (fun t => (t.readCell 7#16, t.output, t.input)) = some (0x42#16, [.char 'B'], []) := by
  decide

/-- 95_test_vectors.md section 2.4: with `AR` = 0xFFFE the character becomes the new `AR`. -/
theorem test_cin_own_target :
    (after (exec .cin { withCells [] [(0xFFFE, 0xFFFE#16)] with input := ['B'] })).map (·.ar) =
      some 0x42#16 := by
  decide

/-- P6: the snapshot holds the reserved cells too. -/
theorem test_dmp :
    (after (exec .dmp (withCells [] [(0x30, 0x61#16), (0xFFFE, 0x31#16)]))).map (·.diagnostic) =
      some [.dump [(0x30, 0x61#16), (0xFFFE, 0x31#16)]] := by
  decide

/-- 44_control.md R130: `CS` = [2] gives `pc` = 3. -/
theorem test_rtn :
    (after (exec .rtn { withCells [] [] with callStack := [2] })).map
      (fun t => (t.pc, t.callStack)) = some (3, []) := by
  decide

/-- W5d. -/
theorem test_rtn_empty :
    (after (exec .rtn (withCells [] []))).map (fun t => (t.status, t.pc)) =
      some (.faulted .emptyCallStack, 0) := by
  decide

/-- 95_test_vectors.md section 2.2: `SEA *0x0200`. -/
theorem test_sea :
    (after (exec (.sea (.address 0x0200#16)) (dataState 7#16 0x42#16))).map (·.ar) = some 0x42#16 := by
  decide

/-- W3d: `SET *0x0005`. -/
theorem test_set :
    (after (exec (.set (.address 5#16)) (withCells [] [(5, 0x1234#16)]))).map
      (fun t => t.readCell 0#16) = some 0x1234#16 := by
  decide

/-- 95_test_vectors.md section 2.2: with `AR` = 0xFFFE the address register itself is set. -/
theorem test_set_own_target :
    (after (exec (.set (.literal 0x0100#16)) (withCells [] [(0xFFFE, 0xFFFE#16)]))).map (·.mem) =
      some [(0xFFFE, 0x0100#16)] := by
  decide

/-- W2, and twice 0x8001 through its own cell. -/
theorem test_add :
    targetAfter (.add (.literal 1#16)) 0xFFFF#16 0#16 = some 0#16 ∧
    targetAfter (.add (.address 0x0100#16)) 0x8001#16 0#16 = some 2#16 := by
  decide

/-- 95_test_vectors.md section 2.2: target minus operand. -/
theorem test_sub :
    targetAfter (.sub (.literal 5#16)) 3#16 0#16 = some 0xFFFE#16 ∧
    targetAfter (.sub (.literal 1#16)) 0#16 0#16 = some 0xFFFF#16 := by
  decide

/-- 95_test_vectors.md section 2.2. -/
theorem test_mul :
    targetAfter (.mul (.literal 0xFFFF#16)) 0xFFFF#16 0#16 = some 1#16 ∧
    targetAfter (.mul (.literal 0x0100#16)) 0x0100#16 0#16 = some 0#16 := by
  decide

/-- 95_test_vectors.md section 2.2. -/
theorem test_div :
    targetAfter (.div (.literal 2#16)) 7#16 0#16 = some 3#16 ∧
    targetAfter (.div (.literal 0x0100#16)) 0xFFFF#16 0#16 = some 0xFF#16 := by
  decide

/-- 95_test_vectors.md section 2.2: `DIV *0x0200` with 0 there. -/
theorem test_div_zero :
    (after (exec (.div (.address 0x0200#16)) (dataState 7#16 0#16))).map
      (fun t => (t.status, t.readCell 0x0100#16, t.pc)) = some (.faulted .divisionByZero, 7#16, 0) := by
  decide

/-- 44_control.md R131. -/
theorem test_lab :
    (after (exec (.lab (.literal 1#16)) (withCells [] []))).map (fun t => (t.pc, t.mem)) = some (1, []) := by
  decide

/-- 95_test_vectors.md section 2.3. -/
theorem test_ceq :
    flagAfter (.ceq (.literal 5#16)) 5#16 = some 1#16 ∧ flagAfter (.ceq (.literal 3#16)) 5#16 = some 0#16 := by
  decide

/-- 95_test_vectors.md section 2.3: the comparison is unsigned. -/
theorem test_gtn :
    flagAfter (.gtn (.literal 0x7FFF#16)) 0x8000#16 = some 1#16 ∧
    flagAfter (.gtn (.literal 5#16)) 5#16 = some 0#16 := by
  decide

/-- 95_test_vectors.md section 2.3. -/
theorem test_ltn :
    flagAfter (.ltn (.literal 0xFFFF#16)) 0#16 = some 1#16 ∧
    flagAfter (.ltn (.literal 0x7FFF#16)) 0x8000#16 = some 0#16 := by
  decide

/-- 95_test_vectors.md section 2.3. -/
theorem test_gte :
    flagAfter (.gte (.literal 5#16)) 5#16 = some 1#16 ∧ flagAfter (.gte (.literal 5#16)) 3#16 = some 0#16 := by
  decide

/-- 95_test_vectors.md section 2.3. -/
theorem test_lte :
    flagAfter (.lte (.literal 5#16)) 5#16 = some 1#16 ∧ flagAfter (.lte (.literal 1#16)) 0xFFFF#16 = some 0#16 := by
  decide

/-- 95_test_vectors.md section 2.5: taken with flag 0, not with flag 2. -/
theorem test_bne :
    (after (exec (.bne (.literal 3#16)) (withCells [.bne (.literal 3#16), .out, .lab (.literal 3#16)] []))).map
      (·.pc) = some 2 ∧
    (after (exec (.bne (.literal 3#16)) (withCells [.bne (.literal 3#16), .out, .lab (.literal 3#16)]
      [(0xFFFD, 2#16)]))).map (·.pc) = some 1 := by
  decide

/-- 95_test_vectors.md section 2.5: an untaken BEQ to an undeclared label faults. -/
theorem test_beq_untaken_undeclared :
    (after (exec (.beq (.literal 3#16)) (withCells [.beq (.literal 3#16)] []))).map
      (fun t => (t.status, t.pc)) = some (.faulted (.undeclaredLabel 3#16), 0) := by
  decide

/-- 95_test_vectors.md section 2.5: taken with flag 1 only. -/
theorem test_beq :
    (after (exec (.beq (.literal 3#16)) (withCells [.beq (.literal 3#16), .out, .lab (.literal 3#16)]
      [(0xFFFD, 1#16)]))).map (·.pc) = some 2 ∧
    (after (exec (.beq (.literal 3#16)) (withCells [.beq (.literal 3#16), .out, .lab (.literal 3#16)]
      [(0xFFFD, 2#16)]))).map (·.pc) = some 1 := by
  decide

/-- 95_test_vectors.md section 2.5: the last declaration wins and the own index is pushed. -/
theorem test_jmp :
    (after (exec (.jmp (.literal 1#16)) (withCells [.jmp (.literal 1#16), .lab (.literal 1#16),
      .lab (.literal 1#16), .rtn] []))).map (fun t => (t.pc, t.callStack)) = some (2, [0]) := by
  decide

/-- W6c. -/
theorem test_jmp_undeclared :
    (after (exec (.jmp (.literal 9#16)) (withCells [.jmp (.literal 9#16)] []))).map
      (fun t => (t.status, t.pc, t.callStack)) = some (.faulted (.undeclaredLabel 9#16), 0, []) := by
  decide

/-- 44_control.md R135: `mem[32]` = 42. -/
theorem test_ext :
    (after (exec (.ext (.address 32#16)) (withCells [] [(32, 42#16)]))).map (fun t => (t.status, t.pc)) =
      some (.halted 42#16, 0) := by
  decide

/-- A step runs the word that was placed where it fetches. -/
theorem test_step_runs_the_placed_word :
    (after (step (State.reset.withFetchWord 32 0x00060005))).map (·.mem) = some [(0, 5#16)] ∧
    (after (step (State.reset.withFetchWord 32 0x00150000))).map (·.loader) =
      some (.failed (.codec (.unknownOpcode 0x15#8 0))) := by decide

/-! ### Witnesses: states and operands that meet the statements' hypotheses -/

theorem witness_DecodeInvertsEncode :
    decodeProgram [0x10#8, 0x06#8, 0x00#8, 0x05#8] = .ok [.set (.address 5#16)] ∧
    decodeProgram [0x01#8, 0x06#8, 0x00#8, 0x05#8] = .ok [.set (.address 5#16)] := by decide

theorem witness_NonCanonicalModesDecodeAlike :
    decodeProgram [0xFF#8, 0x04#8] = .ok [.rtn] ∧ (0x04#8).toNat ≤ 0x04 ∧ 0x04 < (0x05#8).toNat ∧
    (0x01#8 : Byte) ≠ 0x00#8 := by decide

theorem witness_UnknownOpcodeFailsTheDecode :
    decodeProgram [0x00#8, 0x04#8] = .ok [.rtn] ∧ 0x15 ≤ (0x15#8).toNat := by decide

theorem witness_TruncatedStreamFailsTheDecode :
    decodeProgram [0x00#8, 0x04#8] = .ok [.rtn] ∧ 0x04 < (0x05#8).toNat := by decide

theorem witness_DecodeEndsAtARecordBoundary :
    decodeProgram [0x00#8, 0x04#8, 0x00#8, 0x05#8, 0x00#8, 0x00#8] =
      .ok [.rtn, .sea (.literal 0#16)] := by decide

theorem witness_OpcodesNameTheVariants :
    (Instr.sea (.literal 1#16)).opcode = 0x05#8 ∧
    (Instr.sea (.literal 1#16)).operand = some (.literal 1#16) := by decide

theorem witness_TextProgramsSurviveTheCodec :
    assemble ['R', 'T', 'N'] = .ok [.rtn] := by decide

theorem witness_CommentsAndLeadingBlanksAreIgnored :
    ';' ∉ ['R', 'T', 'N'] ∧ assembleLine ['R', 'T', 'N'] = .ok (some .rtn) ∧
    (∀ b ∈ [' ', '\t'], b = ' ' ∨ b = '\t') :=
  ⟨by decide, by decide, by simp⟩

theorem witness_AssemblerChecksTheMnemonic :
    (∀ i, mnemonicOf i ≠ ['o', 'u', 't']) ∧ (Instr.sea (.literal 0#16)).operand ≠ none ∧
    Instr.out.operand = none := by
  refine ⟨fun i => ?_, nofun, rfl⟩
  cases i <;> simp [mnemonicOf]

/-- `0xfF` is 255 and `0b1` is 1: the digits of either case, both bases. -/
theorem witness_AssemblerReadsNumbers :
    Prefixed 16 ['0', 'x', 'f', 'F'] ['f', 'F'] ∧ Numeral 16 ['f', 'F'] (255#16).toNat ∧
    Prefixed 2 ['0', 'b', '1'] ['1'] ∧ Numeral 2 ['1'] (1#16).toNat ∧
    (Instr.sea (.literal 255#16)).operand = some (.literal 255#16) ∧
    (Instr.sea (.address 1#16)).operand = some (.address 1#16) :=
  ⟨.inl ⟨rfl, rfl⟩, ⟨nofun, [15, 15], .cons (by unfold DigitOf; decide)
      (.cons (by unfold DigitOf; decide) .nil), by decide⟩,
    .inr ⟨rfl, rfl⟩, ⟨nofun, [1], .cons (by unfold DigitOf; decide) .nil, by decide⟩, rfl, rfl⟩

/-- An empty digit string is no numeral; `5` has no prefix. -/
theorem witness_AssemblerRefusesNumbers :
    Prefixed 16 ['0', 'x'] [] ∧ (∀ n ≤ 0xFFFF, ¬ Numeral 16 [] n) ∧
    (∀ base digits, ¬ Prefixed base ['5'] digits) ∧ ['5'].head? ≠ some '*' ∧
    (Instr.sea (.literal 0#16)).operand ≠ none :=
  ⟨.inl ⟨rfl, rfl⟩, fun _ _ h => h.1 rfl, fun _ _ h => by simp [Prefixed] at h, by decide, nofun⟩

theorem witness_CanonicalMemoriesWithEqualCellsAreEqual :
    Memory.wf [(0, 1#16), (65535, 0xFFFF#16)] = true := by decide

/-- A state with `src` at the program-load port and one character supplied. -/
def pendingState (src : Source) : State := { State.offer src with input := ['B'] }

theorem witness_LoadStartsTheRunOrRefusesTheProgram :
    (pendingState (.binary [0x00#8, 0x0B#8, 0x00#8, 0x01#8])).loader =
      .pending (.binary [0x00#8, 0x0B#8, 0x00#8, 0x01#8]) ∧
    decodeProgram [0x00#8, 0x0B#8, 0x00#8, 0x01#8] = .ok [.lab (.literal 1#16)] ∧
    (pendingState (.text ['R', 'T', 'N'])).loader = .pending (.text ['R', 'T', 'N']) ∧
    assemble ['R', 'T', 'N'] = .ok [.rtn] := by decide

theorem witness_MalformedSourceIsALoadError :
    (pendingState (.binary [0x00#8])).loader = .pending (.binary [0x00#8]) ∧
    decodeProgram [0x00#8] = .error (.truncatedStream 0) ∧
    (pendingState (.text ['X'])).loader = .pending (.text ['X']) ∧
    assemble ['X'] = .error (.unknownMnemonic ['X']) := by decide

/-- A running state at index 1 of a Program, with `AR` = 0x0100, a non-empty call stack and a flag of
1. -/
def midRun (p : Program) : State :=
  { withCells p [(0x0100, 7#16), (0xFFFD, 1#16), (0xFFFE, 0x0100#16)] with
    pc := 1, callStack := [0] }

theorem witness_StepRunsTheFetchedInstruction :
    (midRun [.jmp (.literal 1#16), .out]).loader = .loaded ∧
    (midRun [.jmp (.literal 1#16), .out]).status = .running ∧
    (midRun [.jmp (.literal 1#16), .out]).program[(midRun [.jmp (.literal 1#16), .out]).pc]? =
      some .out ∧
    decodeProgram (encodeProgram [.jmp (.literal 1#16)] ++ encode .out ++ encodeProgram []) =
      .ok (midRun [.jmp (.literal 1#16), .out]).program := by decide

theorem witness_EndOfProgramHaltsWithZero :
    (midRun [.out]).loader = .loaded ∧ (midRun [.out]).status = .running ∧
    (midRun [.out]).program.length ≤ (midRun [.out]).pc ∧
    (withCells [] []).program.length ≤ (withCells [] []).pc := by decide

theorem witness_EndedRunsChangeNothing :
    State.ended { midRun [] with status := .halted 3#16 } ∧
    State.ended { midRun [] with status := .faulted .divisionByZero } ∧
    State.ended { midRun [] with loader := .failed (.codec (.truncatedStream 0)) } := by
  unfold State.ended; decide

/-- A state with a cell, a dump and the end of the empty Program ahead. -/
def dumpedState : State :=
  { withCells [] [(5, 1#16)] with diagnostic := [.dump [(5, 2#16)]] }

theorem witness_StepKeepsTheInvariant :
    dumpedState.Inv ∧ step dumpedState = .next (dumpedState.halt 0#16) := by
  refine ⟨⟨by decide, by decide, by decide, by simp [dumpedState, withCells],
    by simp [dumpedState, withCells], by simp [dumpedState, withCells], fun m h => ?_⟩, rfl⟩
  simp only [dumpedState, List.mem_singleton, DiagToken.dump.injEq] at h
  subst h
  decide

theorem witness_RunResultReportsTheOutcome :
    (pendingState (.text [])).loader = .pending (.text []) ∧
    { midRun [] with loader := .failed (.programTooLarge 3) }.loader = .failed (.programTooLarge 3) ∧
    (midRun []).loader = .loaded ∧ (midRun []).status = .running ∧
    ((midRun []).halt 5#16).status = .halted 5#16 ∧
    ((midRun []).raise .emptyCallStack).status = .faulted .emptyCallStack := by decide

/-- The target cell's content with `AR` = 0 and `mem[0]` = `v`. -/
def targetOf (v : Word) : Nat :=
  ((withCells [] [(0, v)]).readCell ((withCells [] [(0, v)]).readCell 0xFFFE#16)).toNat

/-- The boundary values next to the surrogates are characters. -/
theorem witness_CutEmitsACharacter :
    ¬ (0xD800 ≤ targetOf 0xD7FF#16 ∧ targetOf 0xD7FF#16 ≤ 0xDFFF) ∧
    ¬ (0xD800 ≤ targetOf 0xE000#16 ∧ targetOf 0xE000#16 ≤ 0xDFFF) := by
  decide

theorem witness_CutOfASurrogateFaults :
    (0xD800 ≤ targetOf 0xD800#16 ∧ targetOf 0xD800#16 ≤ 0xDFFF) ∧
    (0xD800 ≤ targetOf 0xDFFF#16 ∧ targetOf 0xDFFF#16 ≤ 0xDFFF) := by
  decide

theorem witness_CinStoresAndEchoesTheCharacter :
    (pendingState (.binary [])).input = 'B' :: [] ∧ (Char.ofNat 0xFFFF).toNat ≤ 0xFFFF ∧
    { midRun [.out, .cin] with input := [Char.ofNat 0x1F600] }.input = [Char.ofNat 0x1F600] := by
  decide

theorem witness_CinWaitsUntilACharacterIsSupplied : (midRun [.out, .cin]).waiting :=
  ⟨⟨⟨rfl, rfl⟩, rfl⟩, rfl⟩

theorem witness_UnansweredWaitNeverEnds : (midRun [.out, .cin]).waiting :=
  witness_CinWaitsUntilACharacterIsSupplied

theorem witness_DivStoresTheQuotientOrFaults :
    (midRun []).resolve (.address 0x0100#16) ≠ 0#16 ∧ (midRun []).resolve (.address 0x0200#16) = 0#16 := by
  decide

theorem witness_RtnResumesAfterThePoppedIndex :
    (midRun []).callStack = 0 :: [] ∧ (withCells [] []).callStack = [] := by decide

theorem witness_BneBranchesOnFlagZero :
    (midRun [.lab (.literal 7#16)]).labelIndex
      ((midRun [.lab (.literal 7#16)]).resolve (.address 0x0100#16)) = some 0 ∧
    (withCells [] []).readCell 0xFFFD#16 = 0#16 := by decide

theorem witness_BeqBranchesOnFlagOne :
    (midRun [.lab (.literal 7#16)]).labelIndex
      ((midRun [.lab (.literal 7#16)]).resolve (.address 0x0100#16)) = some 0 ∧
    (midRun []).readCell 0xFFFD#16 = 1#16 := by decide

/-- An empty call stack is never full, whatever the depth. -/
theorem witness_JmpPushesItsOwnIndex :
    (withCells [.lab (.literal 0#16)] []).labelIndex
      ((withCells [.lab (.literal 0#16)] []).resolve (.address 5#16)) = some 0 ∧
    Config.callStackDepth ≠ some (withCells [.lab (.literal 0#16)] []).callStack.length :=
  ⟨by decide, callStackDepth_ne_zero⟩

theorem witness_LabelAndOverflowErrorsComeInOrder :
    (midRun []).labelIndex ((midRun []).resolve (.literal 9#16)) = none ∧
    (withCells [.lab (.literal 9#16)] []).labelIndex
      ((withCells [.lab (.literal 9#16)] []).resolve (.literal 9#16)) ≠ none ∧
    (∃ t, exec (.jmp (.literal 9#16)) (withCells [.lab (.literal 9#16)] []) = .next t) ∧
    (withCells [.lab (.literal 9#16)] []).status = .running :=
  ⟨by decide, by decide, ⟨_, rfl⟩, by decide⟩

theorem witness_RuntimeErrorsArePrecise :
    (midRun []).status = .running ∧
    exec (.div (.literal 0#16)) (midRun []) = .next ((midRun []).raise .divisionByZero) ∧
    ((midRun []).raise .divisionByZero).status = .faulted .divisionByZero :=
  ⟨rfl, rfl, rfl⟩

theorem witness_OnlyTheNamedInstructionsRaiseErrors :
    (midRun []).status = .running ∧
    exec (.div (.literal 0#16)) (midRun []) = .next ((midRun []).raise .divisionByZero) ∧
    exec .out (midRun []) = .next (((midRun []).emit (.num 7#16)).setPc 2) :=
  ⟨rfl, rfl, rfl⟩

/-- SEA, and SET with the address register as its own target. -/
theorem witness_OnlyWritersOfTheAddressRegister :
    (∃ t, exec (.sea (.literal 5#16)) (midRun []) = .next t ∧
      t.readCell 0xFFFE#16 ≠ (midRun []).readCell 0xFFFE#16) ∧
    (∃ t, exec (.set (.literal 5#16)) (withCells [] [(0xFFFE, 0xFFFE#16)]) = .next t ∧
      t.readCell 0xFFFE#16 ≠ (withCells [] [(0xFFFE, 0xFFFE#16)]).readCell 0xFFFE#16) :=
  ⟨⟨_, rfl, by decide⟩, ⟨_, rfl, by decide⟩⟩

/-- A compare, and SET with the flag as its target. -/
theorem witness_OnlyWritersOfTheComparisonFlag :
    (∃ t, exec (.ceq (.literal 5#16)) (midRun []) = .next t ∧
      t.readCell 0xFFFD#16 ≠ (midRun []).readCell 0xFFFD#16) ∧
    (∃ t, exec (.set (.literal 2#16)) (withCells [] [(0xFFFE, 0xFFFD#16)]) = .next t ∧
      t.readCell 0xFFFD#16 ≠ (withCells [] [(0xFFFE, 0xFFFD#16)]).readCell 0xFFFD#16) :=
  ⟨⟨_, rfl, by decide⟩, ⟨_, rfl, by decide⟩⟩

theorem witness_InstructionsWriteOnlyTheirCells :
    (∃ t, exec (.add (.literal 5#16)) (midRun []) = .next t) ∧
    0x0200#16 ∉ cellsWritten (midRun []) (.add (.literal 5#16)) :=
  ⟨⟨_, rfl⟩, by decide⟩

/-- The other memory differs from the state's at a cell ADD does not read. -/
theorem witness_InstructionsReadOnlyTheirCells :
    Instr.add (.literal 5#16) ≠ .dmp ∧
    (∀ a ∈ cellsRead (midRun []) (.add (.literal 5#16)),
      Memory.read [(3, 9#16), (0x0100, 7#16), (0xFFFE, 0x0100#16)] a = (midRun []).readCell a) ∧
    ∃ t, exec (.add (.literal 5#16)) (midRun []) = .next t :=
  ⟨nofun, by
    have h : cellsRead (midRun []) (.add (.literal 5#16)) = [0xFFFE#16, 0x0100#16] := rfl
    intro a ha
    rw [h] at ha
    rcases List.mem_cons.mp ha with rfl | ha
    · rfl
    · cases List.mem_singleton.mp ha; rfl, ⟨_, rfl⟩⟩

theorem witness_ProgramAndLabelsAreReadOnly :
    (midRun [.out, .out]).loader = .loaded ∧ ∃ t, step (midRun [.out, .out]) = .next t :=
  ⟨rfl, ⟨_, rfl⟩⟩

theorem witness_OnlyJmpAndRtnMoveTheCallStack :
    ∃ t, exec .rtn (midRun []) = .next t ∧ t.callStack ≠ (midRun []).callStack :=
  ⟨_, rfl, by decide⟩

theorem witness_PortsMoveOnlyByTheirInstructions :
    ∃ t, exec .out (midRun []) = .next t ∧ t.output ≠ (midRun []).output :=
  ⟨_, rfl, by decide⟩

/-- A state about to execute `i` and then `j`, with the address register naming the cell `ar`. -/
def targeting (ar : Word) (i j : Instr) : State :=
  { withCells [.lab (.literal 4#16), i, j] [(0xFFFE, ar)] with pc := 1, input := ['B'] }

/-- SEA of a cell; SET, ADD and CIN that have the address register as their target. -/
theorem witness_SeaTakesEffectAtTheNextInstruction :
    (let s := targeting 7#16 (.sea (.address 0xFFFE#16)) (.set (.literal 6#16))
     s.executing ∧ s.program[s.pc]? = some (.sea (.address 0xFFFE#16)) ∧
       s.program[s.pc + 1]? = some (.set (.literal 6#16)) ∧ 7#16 = s.resolve (.address 0xFFFE#16)) ∧
    (let s := targeting 0xFFFE#16 (.add (.literal 3#16)) .out
     s.executing ∧ s.readCell 0xFFFE#16 = 0xFFFE#16 ∧
       StoresIntoTarget s (.set (.literal 5#16)) 5#16 ∧
       StoresIntoTarget s (.add (.literal 3#16)) 1#16 ∧
       StoresIntoTarget s .cin (Config.cinStore 'B')) :=
  ⟨⟨⟨rfl, rfl⟩, rfl, rfl, rfl⟩, ⟨rfl, rfl⟩, rfl, .inl ⟨_, rfl, rfl⟩,
    .inr (.inl ⟨_, rfl, by decide⟩), .inr (.inr (.inr (.inr (.inr ⟨rfl, _, _, rfl, rfl⟩))))⟩

/-- A compare before BEQ, and SET and DIV through the address register's 0xFFFD before BNE. -/
theorem witness_CompareThenBranchUsesTheResult :
    (let s := targeting 7#16 (.ltn (.literal 7#16)) (.beq (.literal 4#16))
     s.executing ∧ s.program[s.pc]? = some (.ltn (.literal 7#16)) ∧
       s.program[s.pc + 1]? = some (.beq (.literal 4#16)) ∧ ComparesTo s (.ltn (.literal 7#16)) 1#16 ∧
       s.labelIndex 4#16 = some 0) ∧
    (let s := targeting 0xFFFD#16 (.set (.literal 4#16)) (.bne (.address 0xFFFD#16))
     s.executing ∧ s.readCell 0xFFFE#16 = 0xFFFD#16 ∧
       StoresIntoTarget s (.set (.literal 4#16)) 4#16 ∧
       StoresIntoTarget s (.div (.literal 3#16)) 0#16 ∧ s.labelIndex 4#16 = some 0) :=
  ⟨⟨⟨rfl, rfl⟩, rfl, rfl, .inr (.inr (.inl ⟨_, rfl, by decide⟩)), rfl⟩, ⟨rfl, rfl⟩, rfl,
    .inl ⟨_, rfl, rfl⟩, .inr (.inr (.inr (.inr (.inl ⟨_, rfl, by decide, by decide⟩)))), rfl⟩

theorem witness_CallAndReturnResumeAfterTheJump :
    let s := withCells [.jmp (.literal 2#16), .out, .lab (.literal 2#16), .rtn] []
    s.executing ∧ s.program[s.pc]? = some (.jmp (.literal 2#16)) ∧
      s.labelIndex (s.resolve (.literal 2#16)) = some 2 ∧
      s.program[2]? = some (.lab (.literal 2#16)) ∧ s.program[2 + 1]? = some .rtn ∧
      Config.callStackDepth ≠ some s.callStack.length :=
  ⟨⟨rfl, rfl⟩, rfl, rfl, rfl, rfl, callStackDepth_ne_zero⟩

end Sys2Proof.Tests
end

section
/-! PROOFS. Operands (spec/00_scope.md R6): the equation of `State.resolve` for each of the two modes
of a Value, and the statement assembled from them. -/

namespace Sys2Proof.Machine

@[simp] theorem State.resolve_literal (s : State) (k : Word) : s.resolve (.literal k) = k := rfl

@[simp] theorem State.resolve_address (s : State) (a : Word) :
    s.resolve (.address a) = s.readCell a := rfl

/-- Settles O14, by the equation of `State.resolve` for each mode. -/
theorem resolveYieldsLiteralOrCell : Obligations.ResolveYieldsLiteralOrCell :=
  fun s k => ⟨s.resolve_literal k, s.resolve_address k⟩

end Sys2Proof.Machine
end

section
/-! PROOFS. The codec (spec/30_encoding.md). A byte stream decodes to a Program exactly when it is laid
out as that Program's records, one after the other (`Records`); the statements about whole streams are
inductions over that layout. -/

namespace Sys2Proof

/-! ### Opcode bytes name variants (R57 to R59) -/

/-- The record facts of `Laws.RecordShape`, for every variant. -/
theorem recordShape : ∀ i : Instr, Laws.RecordShape.Statement i
  | .out => Laws.RecordShape.out
  | .cut => Laws.RecordShape.cut
  | .cin => Laws.RecordShape.cin
  | .dmp => Laws.RecordShape.dmp
  | .rtn => Laws.RecordShape.rtn
  | .sea op => Laws.RecordShape.sea op
  | .set op => Laws.RecordShape.set op
  | .add op => Laws.RecordShape.add op
  | .sub op => Laws.RecordShape.sub op
  | .mul op => Laws.RecordShape.mul op
  | .div op => Laws.RecordShape.div op
  | .lab op => Laws.RecordShape.lab op
  | .ceq op => Laws.RecordShape.ceq op
  | .gtn op => Laws.RecordShape.gtn op
  | .ltn op => Laws.RecordShape.ltn op
  | .gte op => Laws.RecordShape.gte op
  | .lte op => Laws.RecordShape.lte op
  | .bne op => Laws.RecordShape.bne op
  | .beq op => Laws.RecordShape.beq op
  | .jmp op => Laws.RecordShape.jmp op
  | .ext op => Laws.RecordShape.ext op

theorem knownOpcode_opcode (i : Instr) : knownOpcode i.opcode = true :=
  have ⟨_, _, hknown, _⟩ := recordShape i
  hknown

theorem takesOperand_opcode (i : Instr) : takesOperand i.opcode = i.operand.isSome :=
  have ⟨_, _, _, htakes⟩ := recordShape i
  htakes

theorem recordLength_eq_ite (op : Byte) :
    recordLength op = if op.toNat ≤ 0x04 then 2 else 4 := by
  by_cases h : op.toNat ≤ 0x04
  · simp [recordLength, takesOperand, h]
  · simp [recordLength, takesOperand, h, Nat.lt_of_not_le h]

theorem knownOpcode_iff (op : Byte) : knownOpcode op = true ↔ op.toNat ≤ 0x14 := by
  simp [knownOpcode, Config.opcodeCount, Nat.lt_succ_iff]

theorem valueLess_opcode {i : Instr} (h : i.operand = none) : valueLess i.opcode = some i := by
  cases i <;> cases h <;> rfl

theorem valueCarrying_opcode {i : Instr} {v : Value} (h : i.operand = some v) :
    ∃ mk, valueCarrying i.opcode = some mk ∧ mk v = i := by
  cases i <;> cases h <;> exact ⟨_, rfl, rfl⟩

theorem valueLess_eq_some {op : Byte} {i : Instr} (h : valueLess op = some i) :
    i.opcode = op ∧ i.operand = none := by
  unfold valueLess at h
  split at h <;> cases h <;> exact ⟨BitVec.eq_of_toNat_eq (Eq.symm ‹_›), rfl⟩

theorem valueCarrying_eq_some {op : Byte} {mk : Value → Instr} (h : valueCarrying op = some mk)
    (v : Value) : (mk v).opcode = op ∧ (mk v).operand = some v := by
  unfold valueCarrying at h
  split at h <;> cases h <;> exact ⟨BitVec.eq_of_toNat_eq (Eq.symm ‹_›), rfl⟩

theorem valueLess_eq_none_of_operand {i : Instr} {v : Value} (h : i.operand = some v) :
    valueLess i.opcode = none := by
  have hs := valueLess_isSome i.opcode
  simpa [takesOperand_opcode, h] using hs

/-- A known opcode byte is some variant's. -/
theorem exists_opcode_eq {op : Byte} (h : knownOpcode op = true) : ∃ i : Instr, i.opcode = op := by
  cases ht : takesOperand op with
  | false =>
    obtain ⟨i, hi⟩ := Option.isSome_iff_exists.mp ((valueLess_isSome op).trans (by simp [ht]))
    exact ⟨i, (valueLess_eq_some hi).1⟩
  | true =>
    obtain ⟨mk, hm⟩ :=
      Option.isSome_iff_exists.mp ((valueCarrying_isSome op).trans (by simp [ht, h]))
    exact ⟨mk (.literal 0#16), (valueCarrying_eq_some hm _).1⟩

/-- The opcode byte and the operand determine the instruction. -/
theorem Instr.eq_of_opcode_of_operand {i j : Instr} (hop : i.opcode = j.opcode)
    (hv : i.operand = j.operand) : i = j := by
  cases hi : i.operand with
  | none =>
    have hj := valueLess_opcode (hv.symm.trans hi)
    rw [← hop, valueLess_opcode hi] at hj
    exact Option.some.inj hj
  | some v =>
    obtain ⟨mk, hmk, rfl⟩ := valueCarrying_opcode hi
    obtain ⟨mk', hmk', rfl⟩ := valueCarrying_opcode (hv.symm.trans hi)
    rw [← hop, hmk] at hmk'
    cases hmk'
    rfl

/-! ### The operand's bytes and the mode byte (R60, R61, R70) -/

@[simp] theorem hiByte_valueOf (hi lo : Byte) : hiByte (valueOf hi lo) = hi := by
  apply BitVec.eq_of_toNat_eq
  have hh := hi.isLt
  have hl := lo.isLt
  simp only [hiByte, valueOf, BitVec.toNat_ofNat]
  omega

@[simp] theorem loByte_valueOf (hi lo : Byte) : loByte (valueOf hi lo) = lo := by
  apply BitVec.eq_of_toNat_eq
  have hl := lo.isLt
  simp only [loByte, valueOf, BitVec.toNat_ofNat]
  omega

@[simp] theorem bits_operandOf (mode hi lo : Byte) :
    (operandOf mode hi lo).bits = valueOf hi lo := by
  unfold operandOf
  split <;> rfl

/-- Decoding an operand from the bytes the encoder writes for it gives it back. -/
theorem operandOf_modeByte (v : Value) :
    operandOf v.modeByte (hiByte v.bits) (loByte v.bits) = v := by
  cases v with
  | literal k => simp [operandOf, Value.modeByte, Value.bits]
  | address a => simp [operandOf, Value.modeByte, Value.bits, Config.modeAddressEnc]

/-- The encoder writes the mode byte it read exactly when that is 0x00 or 0x10. -/
theorem modeByte_operandOf_eq_iff (mode hi lo : Byte) :
    (operandOf mode hi lo).modeByte = mode ↔ mode = 0x00#8 ∨ mode = Config.modeAddressEnc := by
  by_cases h : mode = 0x00#8
  · simp [operandOf, Value.modeByte, h]
  · simp [operandOf, Value.modeByte, h, eq_comm]

theorem encode_of_operand_none {i : Instr} (h : i.operand = none) :
    encode i = [0x00#8, i.opcode] := by
  rw [encode, h]

theorem encode_of_operand_some {i : Instr} {v : Value} (h : i.operand = some v) :
    encode i = [v.modeByte, i.opcode, hiByte v.bits, loByte v.bits] := by
  rw [encode, h]

/-! ### The canonical check, one lemma per record format (R71) -/

theorem canonical_valueLess {mode op : Byte} (h : takesOperand op = false) (rest : List Byte) :
    Stream.canonical (mode :: op :: rest) = true ↔
      mode = 0x00#8 ∧ Stream.canonical rest = true := by
  rw [Stream.canonical.eq_def]
  simp [h, canonicalMode]

theorem canonical_valueCarrying {mode op : Byte} (h : takesOperand op = true) (hi lo : Byte)
    (rest : List Byte) :
    Stream.canonical (mode :: op :: hi :: lo :: rest) = true ↔
      (mode = 0x00#8 ∨ mode = Config.modeAddressEnc) ∧ Stream.canonical rest = true := by
  rw [Stream.canonical.eq_def]
  simp [h, canonicalMode]

/-! ### Streams laid out as records (R55, R64, R67) -/

/-- The bytes are the records of the Program, one after the other to the end, with any mode byte that
says the operand's mode. -/
inductive Records : List Byte → Program → Prop where
  | nil : Records [] []
  /-- A record of format F0, whose mode byte says nothing (R62). -/
  | valueLess {i : Instr} {rest : List Byte} {p : Program} (mode : Byte) (h : i.operand = none)
      (tail : Records rest p) : Records (mode :: i.opcode :: rest) (i :: p)
  /-- A record of format F1 (R60, R61). -/
  | valueCarrying {i : Instr} {rest : List Byte} {p : Program} (mode hi lo : Byte)
      (h : i.operand = some (operandOf mode hi lo)) (tail : Records rest p) :
      Records (mode :: i.opcode :: hi :: lo :: rest) (i :: p)

theorem map_cons_eq_ok {r : Except CodecError Program} {i : Instr} {p : Program}
    (h : r.map (i :: ·) = .ok p) : ∃ q, r = .ok q ∧ p = i :: q := by
  cases r with
  | error e => cases h
  | ok q => cases h; exact ⟨q, rfl, rfl⟩

theorem records_of_decodeFrom {off : Nat} {bytes : List Byte} {p : Program}
    (h : decodeFrom off bytes = .ok p) : Records bytes p := by
  induction off, bytes using decodeFrom.induct generalizing p with
  | case1 off => cases (decodeFrom_nil off).symm.trans h; exact .nil
  | case2 off b => cases (decodeFrom_one off b).symm.trans h
  | case3 off mode op rest i hl ih =>
    rw [decodeFrom_valueLess hl] at h
    obtain ⟨q, hq, rfl⟩ := map_cons_eq_ok h
    obtain ⟨rfl, hv⟩ := valueLess_eq_some hl
    exact .valueLess mode hv (ih hq)
  | case4 off mode op hl hi lo rest mk hm ih =>
    rw [decodeFrom_valueCarrying hl hm] at h
    obtain ⟨q, hq, rfl⟩ := map_cons_eq_ok h
    obtain ⟨rfl, hv⟩ := valueCarrying_eq_some hm (operandOf mode hi lo)
    exact .valueCarrying mode hi lo hv (ih hq)
  | case5 off mode op hl hi lo rest hm => cases (decodeFrom_unknown hl hm).symm.trans h
  | case6 off mode op rest hl hr =>
    have hlen : rest.length < 2 := by
      match rest with
      | [] | [_] => simp
      | hi :: lo :: rest' => exact absurd rfl (hr hi lo rest')
    cases (decodeFrom_short hl hlen).symm.trans h

theorem Records.decodeFrom_eq_ok {bytes : List Byte} {p : Program} (h : Records bytes p) (off : Nat) :
    decodeFrom off bytes = .ok p := by
  induction h generalizing off with
  | nil => exact decodeFrom_nil off
  | valueLess mode hv tail ih => rw [decodeFrom_valueLess (valueLess_opcode hv), ih]; rfl
  | valueCarrying mode hi lo hv tail ih =>
    obtain ⟨mk, hm, hi⟩ := valueCarrying_opcode hv
    rw [decodeFrom_valueCarrying (valueLess_eq_none_of_operand hv) hm, ih, hi]
    rfl

/-- A stream decodes to a Program exactly when it is laid out as its records. -/
theorem decodeProgram_eq_ok_iff {bytes : List Byte} {p : Program} :
    decodeProgram bytes = .ok p ↔ Records bytes p :=
  ⟨records_of_decodeFrom, fun h => h.decodeFrom_eq_ok 0⟩

/-- The encoder writes the Program's records. -/
theorem records_encodeProgram (p : Program) : Records (encodeProgram p) p := by
  induction p with
  | nil => exact .nil
  | cons i p ih =>
    cases hv : i.operand with
    | none =>
      rw [encodeProgram, encode_of_operand_none hv]
      exact .valueLess _ hv ih
    | some v =>
      rw [encodeProgram, encode_of_operand_some hv]
      exact .valueCarrying _ _ _ (by rw [operandOf_modeByte, hv]) ih

theorem decodeProgram_encodeProgram (p : Program) : decodeProgram (encodeProgram p) = .ok p :=
  decodeProgram_eq_ok_iff.mpr (records_encodeProgram p)

/-- Of all the layouts of a Program, the encoder writes the canonical one: record by record, only the
mode byte is free. -/
theorem Records.encodeProgram_eq_iff {bytes : List Byte} {p : Program} (h : Records bytes p) :
    encodeProgram p = bytes ↔ Stream.canonical bytes = true := by
  induction h with
  | nil => simp [encodeProgram, Stream.canonical]
  | @valueLess i rest p mode hv tail ih =>
    have ht : takesOperand i.opcode = false := by simp [takesOperand_opcode, hv]
    rw [canonical_valueLess ht, ← ih, encodeProgram, encode_of_operand_none hv]
    simp [@eq_comm _ mode]
  | @valueCarrying i rest p mode hi lo hv tail ih =>
    have ht : takesOperand i.opcode = true := by simp [takesOperand_opcode, hv]
    rw [canonical_valueCarrying ht, ← ih, ← modeByte_operandOf_eq_iff mode hi lo, encodeProgram,
      encode_of_operand_some hv]
    simp

/-- The records of a Program fill the stream. -/
theorem Records.length_eq {bytes : List Byte} {p : Program} (h : Records bytes p) :
    bytes.length = (p.map fun i => recordLength i.opcode).sum := by
  induction h with
  | nil => rfl
  | @valueLess i rest p mode hv tail ih =>
    have hlen : recordLength i.opcode = 2 := by simp [recordLength, takesOperand_opcode, hv]
    rw [List.map_cons, List.sum_cons, ← ih, hlen, List.length_cons, List.length_cons]
    omega
  | @valueCarrying i rest p mode hi lo hv tail ih =>
    have hlen : recordLength i.opcode = 4 := by simp [recordLength, takesOperand_opcode, hv]
    rw [List.map_cons, List.sum_cons, ← ih, hlen]
    simp only [List.length_cons]
    omega

/-! ### The statements -/

/-- Settles O6: the opcode bytes of the variants are the known ones, and with the operand they
determine the instruction. -/
theorem opcodesNameTheVariants : Obligations.OpcodesNameTheVariants := by
  refine ⟨fun op => ?_, fun i j => Instr.eq_of_opcode_of_operand⟩
  rw [← knownOpcode_iff]
  constructor
  · rintro ⟨i, rfl⟩
    exact knownOpcode_opcode i
  · exact exists_opcode_eq

/-- Settles O5, by the length of a stream laid out as records. -/
theorem decodeEndsAtARecordBoundary : Obligations.DecodeEndsAtARecordBoundary := by
  refine ⟨decodeFrom_nil 0, fun bytes p h => ?_⟩
  simpa only [recordLength_eq_ite] using (decodeProgram_eq_ok_iff.mp h).length_eq

/-- Settles O1: the encoder's output is laid out as the Program's records, and of all such layouts it is
the canonical one. -/
theorem decodeInvertsEncode : Obligations.DecodeInvertsEncode :=
  ⟨decodeProgram_encodeProgram, fun _ _ h => (decodeProgram_eq_ok_iff.mp h).encodeProgram_eq_iff⟩

/-- Settles O8: the round trip holds of every Program, so of those the assembler makes. -/
theorem textProgramsSurviveTheCodec : Obligations.TextProgramsSurviveTheCodec :=
  fun _ p _ => decodeProgram_encodeProgram p

end Sys2Proof
end

section
/-! PROOFS. The engine's label pre-pass and the end of the Program (spec/40_engine.md R91 to R95). The
label table of a Program is followed one appended instruction at a time: the appended one is the last in
Program order, so it overrides the entry of the key it declares and leaves every other entry alone. -/

namespace Sys2Proof.Machine

/-! ### Declarations of a key (R91, R92) -/

/-- Only `Label(Literal(k))` declares `k`. -/
theorem declaredLabel_eq_some_iff (i : Instr) (k : Word) :
    declaredLabel i = some k ↔ i = .lab (.literal k) := by
  cases i with
  | lab op => cases op <;> simp [declaredLabel]
  | _ => simp [declaredLabel]

/-- `Label(Literal(k))` stands at index `i` of the Program and at no later one. -/
def LastDeclaredAt (p : Program) (k : Word) (i : Nat) : Prop :=
  p[i]? = some (.lab (.literal k)) ∧ ∀ j, i < j → p[j]? ≠ some (.lab (.literal k))

theorem not_lastDeclaredAt_nil (k : Word) (i : Nat) : ¬ LastDeclaredAt [] k i := by
  simp [LastDeclaredAt]

theorem LastDeclaredAt.lt_length {p : Program} {k : Word} {i : Nat} (h : LastDeclaredAt p k i) :
    i < p.length := by
  obtain ⟨hi, -⟩ := h
  exact (List.getElem?_eq_some_iff.mp hi).1

/-- An appended declaration of the key is its last one. -/
theorem lastDeclaredAt_concat_same (p : Program) (k : Word) (i : Nat) :
    LastDeclaredAt (p ++ [.lab (.literal k)]) k i ↔ i = p.length := by
  constructor
  · intro h
    have hlt : i < p.length + 1 := by simpa using h.lt_length
    obtain ⟨-, hlast⟩ := h
    have hge : ¬ i < p.length := fun hi => hlast p.length hi (by simp)
    omega
  · rintro rfl
    refine ⟨by simp, fun j hj => ?_⟩
    have hend : (p ++ [Instr.lab (.literal k)]).length ≤ j := by simpa using hj
    simp [List.getElem?_eq_none hend]

/-- Any other appended instruction leaves the last declaration of the key where it is. -/
theorem lastDeclaredAt_concat_other {x : Instr} {k : Word} (hx : x ≠ .lab (.literal k)) (p : Program)
    (i : Nat) : LastDeclaredAt (p ++ [x]) k i ↔ LastDeclaredAt p k i := by
  have hget (j : Nat) :
      (p ++ [x])[j]? = some (.lab (.literal k)) ↔ p[j]? = some (.lab (.literal k)) := by
    rcases lt_trichotomy j p.length with hj | rfl | hj
    · rw [List.getElem?_append_left hj]
    · simp [hx]
    · simp [hj.le, List.getElem?_eq_none, Nat.succ_le_of_lt hj]
  simp only [LastDeclaredAt, ne_eq, hget]

/-! ### The label pre-pass (R91, R92) -/

theorem scanLabels_append (n : Nat) (table : LabelTable) (p q : Program) :
    scanLabels n table (p ++ q) = scanLabels (n + p.length) (scanLabels n table p) q := by
  induction p generalizing n table with
  | nil => rfl
  | cons x p ih =>
    have hlen : n + (x :: p).length = n + 1 + p.length := by rw [List.length_cons]; omega
    cases hx : declaredLabel x <;> simp only [List.cons_append, scanLabels, hx, ih, hlen]

/-- An appended declaration of the key gives the key's entry. -/
theorem find_labelTable_concat_same (p : Program) (k : Word) :
    Table.find k.toNat (labelTable (p ++ [.lab (.literal k)])) = some p.length := by
  simp [labelTable, scanLabels_append, scanLabels, declaredLabel]

/-- Any other appended instruction leaves the key's entry alone. -/
theorem find_labelTable_concat_other {x : Instr} {k : Word} (hx : x ≠ .lab (.literal k))
    (p : Program) :
    Table.find k.toNat (labelTable (p ++ [x])) = Table.find k.toNat (labelTable p) := by
  cases hd : declaredLabel x with
  | none => simp [labelTable, scanLabels_append, scanLabels, hd]
  | some k' =>
    have hk : k.toNat ≠ k'.toNat := by
      intro h
      rw [← BitVec.eq_of_toNat_eq h] at hd
      exact hx ((declaredLabel_eq_some_iff x k).mp hd)
    simp [labelTable, scanLabels_append, scanLabels, hd, Table.find_set_other hk]

/-- The entry of a key is the index of its last declaration. -/
theorem find_labelTable_eq_some_iff (p : Program) (k : Word) (i : Nat) :
    Table.find k.toNat (labelTable p) = some i ↔ LastDeclaredAt p k i := by
  induction p using List.reverseRecOn with
  | nil => exact iff_of_false nofun (not_lastDeclaredAt_nil k i)
  | append_singleton p x ih =>
    by_cases hx : x = .lab (.literal k)
    · rw [hx, find_labelTable_concat_same, lastDeclaredAt_concat_same, Option.some.injEq, eq_comm]
    · rw [find_labelTable_concat_other hx, lastDeclaredAt_concat_other hx, ih]

/-- A key has no entry exactly when no instruction declares it. -/
theorem find_labelTable_eq_none_iff (p : Program) (k : Word) :
    Table.find k.toNat (labelTable p) = none ↔ Instr.lab (.literal k) ∉ p := by
  induction p using List.reverseRecOn with
  | nil => exact iff_of_true rfl List.not_mem_nil
  | append_singleton p x ih =>
    by_cases hx : x = .lab (.literal k)
    · simp [hx, find_labelTable_concat_same]
    · simp [find_labelTable_concat_other hx, ih, Ne.symm hx]

/-- Settles O15, by induction on the Program from its end: what one more instruction does to the last
declaration of a key, it does to the key's entry. -/
theorem labelTableHoldsTheLastDeclaration : Obligations.LabelTableHoldsTheLastDeclaration :=
  fun p k => ⟨find_labelTable_eq_some_iff p k, find_labelTable_eq_none_iff p k⟩

/-! ### The end of the Program (R95) -/

theorem State.fetch_eq_none_iff (s : State) : s.fetch = none ↔ s.program.length ≤ s.pc :=
  List.getElem?_eq_none_iff

/-- One step in the main loop at or past the end of the Program halts with exit code 0. -/
theorem step_of_length_le_pc {s : State} (h : s.executing) (hpc : s.program.length ≤ s.pc) :
    step s = .next (s.halt 0#16) := by
  obtain ⟨hloaded, hrunning⟩ := h
  have hfetch : s.fetch = none := s.fetch_eq_none_iff.mpr hpc
  simp only [step, State.iterate, hloaded, hrunning, hfetch]

/-- Settles O20: with nothing to fetch the iteration is the halt, which changes only the status. -/
theorem endOfProgramHaltsWithZero : Obligations.EndOfProgramHaltsWithZero :=
  fun _ hloaded hrunning hpc => step_of_length_le_pc ⟨hloaded, hrunning⟩ hpc

end Sys2Proof.Machine
end

section
/-! PROOFS. OUT (spec/41_io.md R105): the canonical record of a value-less variant, the cell that the
address register names, and the state that OUT leaves. -/

namespace Sys2Proof.Machine

/-- A value-less variant is the F0 record of its opcode byte, both ways (30_encoding.md R70). -/
theorem encodedF0_of_operand_none {i : Instr} (h : i.operand = none) : EncodedF0 i i.opcode := by
  have hrecord : Records [0x00#8, i.opcode] [i] := .valueLess _ h .nil
  exact ⟨encode_of_operand_none h, decodeProgram_eq_ok_iff.mpr hrecord⟩

/-- The target cell is the one whose index cell 0xFFFE holds (00_scope.md R5). -/
theorem State.targetValue_eq_readCell (s : State) :
    s.targetValue = s.readCell (s.readCell 0xFFFE#16) := rfl

theorem exec_out (s : State) :
    exec .out s = s.finish (s.emit (.num s.targetValue)) .next := rfl

/-- Settles O26: OUT ends by moving the pointer, and its only effect is the emitted target value. -/
theorem outEmitsTheTargetCell : Obligations.OutEmitsTheTargetCell := by
  refine ⟨encodedF0_of_operand_none rfl, fun s => ?_⟩
  rw [exec_out, State.finish_next, State.targetValue_eq_readCell, State.emit, State.setPc]

end Sys2Proof.Machine
end

section
/-! PROOFS. SEA, SET, ADD and MUL (spec/42_data_arith.md R110 to R112, R114): the record of a
value-carrying variant, the state after one cell is stored and the pointer advanced, and the ALU's sum
and product as natural numbers modulo 65536. -/

namespace Sys2Proof.Machine

/-! ### The record of a value-carrying variant (30_encoding.md R60, R61, R70) -/

/-- The variant of an F1 opcode byte is the F1 record of that byte, both ways. -/
theorem encodedF1_of_valueCarrying {mk : Value → Instr} {opcode : Byte}
    (h : valueCarrying opcode = some mk) : EncodedF1 mk opcode := by
  have hencode (v : Value) : encode (mk v) =
      [v.modeByte, opcode, v.bits.extractLsb' 8 8, v.bits.extractLsb' 0 8] := by
    obtain ⟨hop, hv⟩ := valueCarrying_eq_some h v
    rw [encode_of_operand_some hv, hop, hiByte_eq_extract, loByte_eq_extract]
  have hdecode (mode hi lo : Byte) :
      decodeProgram [mode, opcode, hi, lo] = .ok [mk (operandOf mode hi lo)] := by
    obtain ⟨hop, hv⟩ := valueCarrying_eq_some h (operandOf mode hi lo)
    rw [decodeProgram_eq_ok_iff, ← hop]
    exact .valueCarrying mode hi lo hv .nil
  refine ⟨fun w => hencode (.literal w), fun w => hencode (.address w), fun hi lo => ?_,
    fun mode hi lo hmode => ?_⟩
  · rw [hdecode, operandOf, if_pos rfl, valueOf_eq_append]
  · rw [hdecode, operandOf, if_neg hmode, valueOf_eq_append]

/-! ### One cell stored, then the next instruction (R110, R111) -/

/-- What a store to one cell, with the pointer advanced, changes and leaves unchanged. -/
theorem State.writeCell_setPc_frame (s : State) (a v : Word) (n : Nat) :
    StoredOnly s ((s.writeCell a v).setPc n) a v ∧ ((s.writeCell a v).setPc n).pc = n ∧
      SameButMemPc s ((s.writeCell a v).setPc n) :=
  ⟨.of_mem rfl, rfl, rfl, rfl, rfl, rfl, rfl, rfl, rfl, rfl⟩

/-- The shared shape of SET, ADD, SUB and MUL stores its result into the cell whose index cell 0xFFFE
holds. -/
theorem State.combineTarget_stores (s : State) (f : Word → Word → Word) (op : Value) :
    ∃ t, s.combineTarget f op = .next t ∧
      StoredOnly s t (s.readCell 0xFFFE#16)
        (f (s.readCell (s.readCell 0xFFFE#16)) (s.resolve op)) ∧
      t.pc = s.pc + 1 ∧ SameButMemPc s t :=
  ⟨_, State.combineTarget_eq f op, s.writeCell_setPc_frame ..⟩

/-! ### The ALU (R116) -/

/-- Narrowing a natural number keeps it modulo 65536. -/
theorem toNat_u16_natCast (n : Nat) : (u16 n).toNat = n % 65536 := by
  rw [u16, BitVec.ofInt_natCast, BitVec.toNat_ofNat]

theorem toNat_aluAdd (x v : Word) : (aluAdd x v).toNat = (x.toNat + v.toNat) % 65536 := by
  rw [aluAdd, ← Int.natCast_add, toNat_u16_natCast]

theorem toNat_aluMul (x v : Word) : (aluMul x v).toNat = x.toNat * v.toNat % 65536 := by
  rw [aluMul, ← Int.natCast_mul, toNat_u16_natCast]

/-! ### The dispatch of the four instructions -/

theorem exec_sea (op : Value) (s : State) :
    exec (.sea op) s = s.finish (s.writeCell 0xFFFE#16 (s.resolve op)) .next := rfl

theorem exec_set (op : Value) (s : State) :
    exec (.set op) s = s.combineTarget (fun _ v => v) op := rfl

theorem exec_add (op : Value) (s : State) : exec (.add op) s = s.combineTarget aluAdd op := rfl

theorem exec_mul (op : Value) (s : State) : exec (.mul op) s = s.combineTarget aluMul op := rfl

/-! ### The statements -/

/-- Settles O32: SEA's only effect is the store to cell 0xFFFE. -/
theorem seaStoresIntoTheAddressRegister : Obligations.SeaStoresIntoTheAddressRegister := by
  refine ⟨encodedF1_of_valueCarrying rfl, fun op s => ?_⟩
  rw [exec_sea, State.finish_next]
  exact ⟨_, rfl, s.writeCell_setPc_frame ..⟩

/-- Settles O33: SET combines by taking the operand alone. -/
theorem setOverwritesTheTargetCell : Obligations.SetOverwritesTheTargetCell := by
  refine ⟨encodedF1_of_valueCarrying rfl, fun op s => ?_⟩
  rw [exec_set]
  exact s.combineTarget_stores (fun _ v => v) op

/-- Settles O34: ADD combines by the narrowed sum. -/
theorem addStoresTheSumModulo65536 : Obligations.AddStoresTheSumModulo65536 := by
  refine ⟨encodedF1_of_valueCarrying rfl, fun op s => ?_⟩
  rw [exec_add]
  obtain ⟨t, hnext, hframe⟩ := s.combineTarget_stores aluAdd op
  exact ⟨t, _, hnext, toNat_aluAdd .., hframe⟩

/-- Settles O36: MUL combines by the narrowed product. -/
theorem mulStoresTheProductModulo65536 : Obligations.MulStoresTheProductModulo65536 := by
  refine ⟨encodedF1_of_valueCarrying rfl, fun op s => ?_⟩
  rw [exec_mul]
  obtain ⟨t, hnext, hframe⟩ := s.combineTarget_stores aluMul op
  exact ⟨t, _, hnext, toNat_aluMul .., hframe⟩

end Sys2Proof.Machine
end

section
/-! PROOFS. CEQ (spec/43_compare.md R120): the state after a compare (R125), and the flag's value from
the predicate of target cell and operand. -/

namespace Sys2Proof.Machine

/-- The compare law: whatever the predicate, its result goes into cell 0xFFFD and nowhere else. -/
theorem State.compareTarget_stores (s : State) (pred : Word → Word → Bool) (op : Value) :
    ∃ t, s.compareTarget pred op = .next t ∧
      StoredOnly s t 0xFFFD#16
        (flagOf (pred (s.readCell (s.readCell 0xFFFE#16)) (s.resolve op))) ∧
      t.pc = s.pc + 1 ∧ SameButMemPc s t :=
  ⟨_, State.compareTarget_eq pred op, s.writeCell_setPc_frame ..⟩

/-- A predicate's result is the flag's value 1 or 0. -/
theorem flagOf_decide (P : Prop) [Decidable P] :
    flagOf (decide P) = if P then 1#16 else 0#16 := by
  simp only [flagOf, decide_eq_true_eq]

/-- CEQ's predicate compares unsigned values, which are equal exactly when the words are. -/
theorem cmpEq_eq_decide (x v : Word) : cmpEq x v = decide (x = v) := by
  simp only [cmpEq, BitVec.toNat_inj]

theorem exec_ceq (op : Value) (s : State) : exec (.ceq op) s = s.compareTarget cmpEq op := rfl

/-- Settles O38: CEQ is the compare law with the predicate that decides equality of the words. -/
theorem ceqSetsTheFlagOnEquality : Obligations.CeqSetsTheFlagOnEquality := by
  refine ⟨encodedF1_of_valueCarrying rfl, fun op s => ?_⟩
  rw [exec_ceq, ← flagOf_decide, ← cmpEq_eq_decide]
  exact s.compareTarget_stores cmpEq op

end Sys2Proof.Machine
end

section
/-! PROOFS. RTN and LAB (spec/44_control.md R130, R131): the state after a pop, and the two ends of RTN. -/

namespace Sys2Proof.Machine

theorem exec_rtn (s : State) : exec .rtn s = execRtn s := rfl

theorem exec_lab (op : Value) (s : State) : exec (.lab op) s = s.finish s .next := rfl

theorem State.popped_of_callStack_cons {s : State} {r : Nat} {rest : List Nat}
    (h : s.callStack = r :: rest) : s.popped = { s with callStack := rest } := by
  rw [State.popped, h, List.tail_cons]

/-- RTN with a caller on the stack takes it off and resumes after it. -/
theorem exec_rtn_of_callStack_cons {s : State} {r : Nat} {rest : List Nat}
    (h : s.callStack = r :: rest) :
    exec .rtn s = .next { s with callStack := rest, pc := r + 1 } := by
  simp only [exec_rtn, execRtn_eq, h, State.popped_of_callStack_cons h, State.setPc]

/-- RTN with no caller faults and leaves the stack and the pointer (60_exceptions.md R144). -/
theorem exec_rtn_of_callStack_nil {s : State} (h : s.callStack = []) :
    exec .rtn s = .next { s with status := .faulted .emptyCallStack } := by
  simp only [exec_rtn, execRtn_eq, h, State.raise]

/-- Settles O40: RTN's two ends, by whether the call stack has a top. -/
theorem rtnResumesAfterThePoppedIndex : Obligations.RtnResumesAfterThePoppedIndex :=
  ⟨encodedF0_of_operand_none rfl, fun _ _ _ h => exec_rtn_of_callStack_cons h,
    fun _ h => exec_rtn_of_callStack_nil h⟩

/-- Settles O41: LAB ends by moving the pointer, with no effect and its operand not resolved. -/
theorem labOnlyAdvancesThePointer : Obligations.LabOnlyAdvancesThePointer := by
  refine ⟨encodedF1_of_valueCarrying rfl, fun op s => ?_⟩
  rw [exec_lab, State.finish_next, State.setPc]

end Sys2Proof.Machine
end

section
/-! PROOFS. The assembler's text (spec/30_encoding.md R76 to R85): numbers, the tokens of a line, the
mnemonics, comments and blanks, and the canonical text. The parser's answers for numbers are tied once to
the statements' own vocabulary (`DigitOf`, `Numeral`, `Prefixed`); the round trip then goes through it. -/

namespace Sys2Proof.Machine

/-! ### Numbers (R78, R79) -/

theorem hexDigit_of_digitOf {base d : Nat} {c : Char} (hbase : base ≤ 16) (h : DigitOf base c d) :
    hexDigit c = some d := by
  obtain ⟨hd, hc⟩ := h
  have hd16 : d < 16 := by omega
  rcases hc with hc | hc <;> interval_cases d <;> cases hc <;> rfl

theorem digitOf_of_hexDigit {base d : Nat} {c : Char} (hd : d < base) (h : hexDigit c = some d) :
    DigitOf base c d := by
  refine ⟨hd, ?_⟩
  have hc : c = Char.ofNat c.toNat := (Char.ofNat_toNat c).symm
  unfold hexDigit at h
  split_ifs at h with hrange hrange hrange
  all_goals
    obtain ⟨hlo, hhi⟩ := hrange
    cases h
    rw [hc]
  · left
    change 48 ≤ _ at hlo
    change _ ≤ 57 at hhi
    interval_cases c.toNat <;> rfl
  · left
    change 65 ≤ _ at hlo
    change _ ≤ 70 at hhi
    interval_cases c.toNat <;> rfl
  · right
    change 97 ≤ _ at hlo
    change _ ≤ 102 at hhi
    interval_cases c.toNat <;> rfl

theorem digitIn_eq_some_iff {base d : Nat} {c : Char} (hbase : base ≤ 16) :
    digitIn base c = some d ↔ DigitOf base c d := by
  constructor
  · intro h
    unfold digitIn at h
    split at h
    · next d' hc =>
      split at h
      · next hlt => cases h; exact digitOf_of_hexDigit hlt hc
      · cases h
    · cases h
  · intro h
    have hlt : d < base := h.1
    simp only [digitIn, hexDigit_of_digitOf hbase h, if_pos hlt]

/-- The value so far counts as one more leading digit. -/
theorem digitsValue_eq_some_iff {base : Nat} (hbase : base ≤ 16) (digits : List Char) (acc n : Nat) :
    digitsValue base acc digits = some n ↔
      ∃ ds, List.Forall₂ (DigitOf base) digits ds ∧ n = Nat.ofDigits base (acc :: ds).reverse := by
  induction digits generalizing acc with
  | nil => simp [digitsValue, eq_comm]
  | cons c digits ih =>
    have hlead (d : Nat) (ds : List Nat) : Nat.ofDigits base ((acc * base + d) :: ds).reverse =
        Nat.ofDigits base (acc :: d :: ds).reverse := by
      simp only [Nat.ofDigits_reverse_cons, List.length_cons]
      ring
    constructor
    · intro h
      unfold digitsValue at h
      split at h
      · next d hc =>
        obtain ⟨ds, hds, rfl⟩ := (ih _).mp h
        exact ⟨d :: ds, .cons ((digitIn_eq_some_iff hbase).mp hc) hds, hlead d ds⟩
      · cases h
    · rintro ⟨_, hall, rfl⟩
      cases hall with
      | @cons _ d _ ds hc hds =>
        simp only [digitsValue, (digitIn_eq_some_iff hbase).mpr hc]
        exact (ih _).mpr ⟨ds, hds, (hlead d ds).symm⟩

theorem parseDigits_eq_some_iff {base : Nat} (hbase : base ≤ 16) (digits : List Char) (w : Word) :
    parseDigits base digits = some w ↔ Numeral base digits w.toNat := by
  cases digits with
  | nil => exact iff_of_false nofun fun h => h.1 rfl
  | cons c digits =>
    have hvalue : Numeral base (c :: digits) w.toNat ↔
        digitsValue base 0 (c :: digits) = some w.toNat := by
      simp only [digitsValue_eq_some_iff hbase, Nat.ofDigits_reverse_zero_cons, Numeral, ne_eq,
        reduceCtorEq, not_false_eq_true, true_and]
    rw [hvalue, parseDigits]
    cases digitsValue base 0 (c :: digits) with
    | none => simp
    | some n =>
      have hw : w.toNat ≤ 0xFFFF := Nat.le_of_lt_succ w.isLt
      simp only [Option.some.injEq]
      constructor
      · intro h
        split at h
        · next hn => cases h; exact (Nat.mod_eq_of_lt (Nat.lt_succ_of_le hn)).symm
        · cases h
      · rintro rfl
        rw [if_pos hw, BitVec.ofNat_toNat, BitVec.setWidth_eq]

theorem parseDigits_eq_none {base : Nat} (hbase : base ≤ 16) {digits : List Char}
    (h : ∀ n ≤ 0xFFFF, ¬ Numeral base digits n) : parseDigits base digits = none := by
  cases hp : parseDigits base digits with
  | none => rfl
  | some w =>
    exact absurd ((parseDigits_eq_some_iff hbase digits w).mp hp) (h _ (Nat.le_of_lt_succ w.isLt))

theorem Prefixed.base_le {base : Nat} {num digits : List Char} (h : Prefixed base num digits) :
    base ≤ 16 := by
  rcases h with ⟨rfl, -⟩ | ⟨rfl, -⟩ <;> decide

theorem Prefixed.head_ne {base : Nat} {num digits : List Char} (h : Prefixed base num digits) :
    num.head? ≠ some '*' := by
  rcases h with ⟨-, rfl⟩ | ⟨-, rfl⟩ <;> simp

theorem Prefixed.parseNumber_eq_ok {base : Nat} {num digits : List Char} {w : Word}
    (h : Prefixed base num digits) (hw : Numeral base digits w.toNat) (line : List Char) :
    parseNumber line num = .ok w := by
  rw [← parseDigits_eq_some_iff h.base_le] at hw
  rcases h with ⟨rfl, rfl⟩ | ⟨rfl, rfl⟩ <;> simp only [parseNumber, hw]

theorem Prefixed.parseNumber_eq_error {base : Nat} {num digits : List Char}
    (h : Prefixed base num digits) (hnone : ∀ n ≤ 0xFFFF, ¬ Numeral base digits n)
    (line : List Char) : parseNumber line num = .error (.invalidNumber line) := by
  have hd := parseDigits_eq_none h.base_le hnone
  rcases h with ⟨rfl, rfl⟩ | ⟨rfl, rfl⟩ <;> simp only [parseNumber, hd]

theorem parseNumber_of_not_prefixed {num : List Char}
    (h : ∀ base digits, ¬ Prefixed base num digits) (line : List Char) :
    parseNumber line num = .error (.unknownNumberFormat line) := by
  unfold parseNumber
  split
  · next digits => exact absurd (.inl ⟨rfl, rfl⟩) (h 16 digits)
  · next digits => exact absurd (.inr ⟨rfl, rfl⟩) (h 2 digits)
  · rfl

/-! ### Operands and mnemonics (R77, R78, R80, R81) -/

theorem parseOperand_star (line num : List Char) :
    parseOperand line ('*' :: num) = (parseNumber line num).map .address := rfl

theorem parseOperand_of_head_ne {num : List Char} (h : num.head? ≠ some '*') (line : List Char) :
    parseOperand line num = (parseNumber line num).map .literal := by
  unfold parseOperand
  split
  · exact absurd rfl h
  · rfl

theorem findMnemonic_eq_none {name : List Char} {table : List (List Char × Shape)}
    (h : ∀ e ∈ table, e.1 ≠ name) : findMnemonic name table = none := by
  induction table with
  | nil => rfl
  | cons e table ih =>
    obtain ⟨he, htable⟩ := List.forall_mem_cons.mp h
    rw [findMnemonic, if_neg he, ih htable]

/-- An instruction of the shape. -/
def Shape.sample : Shape → Instr
  | .plain i => i
  | .carrying mk => mk (.literal 0#16)

theorem mnemonicOf_sample {e : List Char × Shape} (h : e ∈ mnemonicTable) :
    mnemonicOf (Shape.sample e.2) = e.1 := by
  have hall : mnemonicTable.map (fun e => mnemonicOf (Shape.sample e.2)) =
      mnemonicTable.map Prod.fst := rfl
  exact List.map_inj_left.mp hall e h

theorem findMnemonic_of_operand_none {i : Instr} (h : i.operand = none) :
    findMnemonic (mnemonicOf i) mnemonicTable = some (.plain i) := by
  cases i <;> cases h <;> rfl

theorem findMnemonic_of_operand_some {i : Instr} {v : Value} (h : i.operand = some v) :
    ∃ mk, findMnemonic (mnemonicOf i) mnemonicTable = some (.carrying mk) ∧ mk v = i := by
  cases i <;> cases h <;> exact ⟨_, rfl, rfl⟩

theorem parseTokens_unknown {name : List Char} (h : ∀ i, mnemonicOf i ≠ name) (line : List Char)
    (operands : List (List Char)) :
    parseTokens line name operands = .error (.unknownMnemonic line) := by
  have hnone : findMnemonic name mnemonicTable = none :=
    findMnemonic_eq_none fun e he => mnemonicOf_sample he ▸ h _
  rw [parseTokens, hnone]

theorem parseTokens_of_operand_none {i : Instr} (h : i.operand = none) (line : List Char)
    (operands : List (List Char)) : parseTokens line (mnemonicOf i) operands = .ok i := by
  rw [parseTokens, findMnemonic_of_operand_none h]

theorem parseTokens_missing {i : Instr} (h : i.operand ≠ none) (line : List Char) :
    parseTokens line (mnemonicOf i) [] = .error (.missingOperand line) := by
  obtain ⟨v, hv⟩ := Option.ne_none_iff_exists'.mp h
  obtain ⟨mk, hmk, -⟩ := findMnemonic_of_operand_some hv
  rw [parseTokens, hmk]

/-- Only the first operand token counts (R81). -/
theorem parseTokens_cons (line name tok : List Char) (more : List (List Char)) :
    parseTokens line name (tok :: more) = parseTokens line name [tok] := by
  unfold parseTokens
  cases findMnemonic name mnemonicTable with
  | none => rfl
  | some shape => cases shape <;> rfl

theorem parseTokens_eq_ok {i : Instr} {v : Value} (h : i.operand = some v) {line tok : List Char}
    (htok : parseOperand line tok = .ok v) : parseTokens line (mnemonicOf i) [tok] = .ok i := by
  obtain ⟨mk, hmk, rfl⟩ := findMnemonic_of_operand_some h
  simp only [parseTokens, hmk, htok]
  rfl

theorem parseTokens_eq_error {i : Instr} (h : i.operand ≠ none) {line tok : List Char} {e : LexError}
    (htok : parseOperand line tok = .error e) :
    parseTokens line (mnemonicOf i) [tok] = .error e := by
  obtain ⟨v, hv⟩ := Option.ne_none_iff_exists'.mp h
  obtain ⟨mk, hmk, -⟩ := findMnemonic_of_operand_some hv
  simp only [parseTokens, hmk, htok]
  rfl

/-- Settles O11: each clause is one lemma about the mnemonic table, or one about numbers lifted through
the operand's two modes. -/
theorem assemblerChecksTheMnemonic : Obligations.AssemblerChecksTheMnemonic := by
  refine ⟨fun line _ operands h => parseTokens_unknown h line operands,
    fun line _ h => parseTokens_missing h line,
    fun line operands _ h => parseTokens_of_operand_none h line operands,
    parseTokens_cons,
    fun line num digits base i k hnum hk => ?_,
    fun line num digits base i hnum hnone hi => ?_,
    fun line num i hnum hi => ?_⟩
  · have hw := hnum.parseNumber_eq_ok hk line
    refine ⟨fun hi => parseTokens_eq_ok hi ?_, fun hi => parseTokens_eq_ok hi ?_⟩
    · rw [parseOperand_of_head_ne hnum.head_ne, hw]; rfl
    · rw [parseOperand_star, hw]; rfl
  · have he := hnum.parseNumber_eq_error hnone line
    refine ⟨parseTokens_eq_error hi ?_, parseTokens_eq_error hi ?_⟩
    · rw [parseOperand_of_head_ne hnum.head_ne, he]; rfl
    · rw [parseOperand_star, he]; rfl
  · have he := parseNumber_of_not_prefixed hnum line
    refine ⟨fun hstar => parseTokens_eq_error hi ?_, parseTokens_eq_error hi ?_⟩
    · rw [parseOperand_of_head_ne hstar, he]; rfl
    · rw [parseOperand_star, he]; rfl

/-! ### Comments and blanks (R76) -/

theorem stripComment_append {line : List Char} (h : ';' ∉ line) (rest : List Char) :
    stripComment (line ++ rest) = line ++ stripComment rest := by
  induction line with
  | nil => rfl
  | cons c line ih =>
    obtain ⟨hc, hline⟩ : ';' ≠ c ∧ ';' ∉ line := by simpa using h
    rw [List.cons_append, stripComment, if_neg (Ne.symm hc), ih hline, List.cons_append]

theorem stripComment_comment (comment : List Char) : stripComment (';' :: comment) = [] := rfl

theorem stripComment_eq_self {line : List Char} (h : ';' ∉ line) : stripComment line = line := by
  simpa [stripComment] using stripComment_append h []

/-- A blank in front of a text that starts a token yields no token. -/
theorem splitTokens_nil_blank {b : Char} (h : isBlank b = true) (rest : List Char) :
    splitTokens [] (b :: rest) = splitTokens [] rest := by
  rw [splitTokens, if_pos h, flushToken]

/-! An error records the line; an answer does not depend on it. -/

theorem exists_of_map_eq_ok {ε α β : Type} {r : Except ε α} {f : α → β} {y : β}
    (h : r.map f = .ok y) : ∃ x, r = .ok x ∧ f x = y := by
  cases r with
  | error e => cases h
  | ok x => cases h; exact ⟨x, rfl, rfl⟩

theorem parseNumber_ok_of_ok {line num : List Char} {w : Word} (h : parseNumber line num = .ok w)
    (line' : List Char) : parseNumber line' num = .ok w := by
  unfold parseNumber at h ⊢
  split at h
  · split at h
    · exact h
    · cases h
  · split at h
    · exact h
    · cases h
  · cases h

theorem parseOperand_ok_of_ok {line tok : List Char} {v : Value} (h : parseOperand line tok = .ok v)
    (line' : List Char) : parseOperand line' tok = .ok v := by
  by_cases hstar : tok.head? = some '*'
  · obtain ⟨num, rfl⟩ := List.head?_eq_some_iff.mp hstar
    obtain ⟨w, hw, rfl⟩ := exists_of_map_eq_ok h
    rw [parseOperand_star, parseNumber_ok_of_ok hw]
    rfl
  · rw [parseOperand_of_head_ne hstar] at h ⊢
    obtain ⟨w, hw, rfl⟩ := exists_of_map_eq_ok h
    rw [parseNumber_ok_of_ok hw]
    rfl

theorem parseTokens_ok_of_ok {line name : List Char} {operands : List (List Char)} {i : Instr}
    (h : parseTokens line name operands = .ok i) (line' : List Char) :
    parseTokens line' name operands = .ok i := by
  unfold parseTokens at h ⊢
  split at h
  · cases h
  · exact h
  · split at h
    · cases h
    · obtain ⟨v, hv, rfl⟩ := exists_of_map_eq_ok h
      simp only [parseOperand_ok_of_ok hv]
      rfl

/-- A line that assembles does so by its tokens alone. -/
theorem assembleLine_ok_of_tokens_eq {line line' : List Char} {r : Option Instr}
    (h : assembleLine line = .ok r)
    (htokens : splitTokens [] (stripComment line') = splitTokens [] (stripComment line)) :
    assembleLine line' = .ok r := by
  unfold assembleLine at h ⊢
  rw [htokens]
  split at h
  · exact h
  · obtain ⟨i, hi, rfl⟩ := exists_of_map_eq_ok h
    simp only [parseTokens_ok_of_ok hi]
    rfl

theorem assembleLine_comment {line : List Char} {r : Option Instr} (hline : ';' ∉ line)
    (h : assembleLine line = .ok r) (comment : List Char) :
    assembleLine (line ++ ';' :: comment) = .ok r := by
  refine assembleLine_ok_of_tokens_eq h ?_
  rw [stripComment_append hline, stripComment_comment, List.append_nil, stripComment_eq_self hline]

theorem assembleLine_blank {b : Char} {line : List Char} {r : Option Instr} (hb : b = ' ' ∨ b = '\t')
    (h : assembleLine line = .ok r) : assembleLine (b :: line) = .ok r := by
  refine assembleLine_ok_of_tokens_eq h ?_
  rcases hb with rfl | rfl <;> exact splitTokens_nil_blank rfl _

theorem assembleLine_nil : assembleLine [] = .ok none := rfl

theorem assembleLine_blanks {blanks : List Char} (h : ∀ b ∈ blanks, b = ' ' ∨ b = '\t') :
    assembleLine blanks = .ok none := by
  induction blanks with
  | nil => exact assembleLine_nil
  | cons b blanks ih =>
    obtain ⟨hb, hblanks⟩ := List.forall_mem_cons.mp h
    exact assembleLine_blank hb (ih hblanks)

/-- Settles O10: a comment and a leading blank leave the tokens of a line, and a line of blanks is the
empty one behind leading blanks. -/
theorem commentsAndLeadingBlanksAreIgnored : Obligations.CommentsAndLeadingBlanksAreIgnored := by
  refine ⟨fun _ comment _ hline h => assembleLine_comment hline h comment,
    fun _ _ _ hb h => assembleLine_blank hb h, fun blanks comment h => ?_⟩
  have hblanks := assembleLine_blanks h
  have hsemi : ';' ∉ blanks := fun hmem => by simpa using h _ hmem
  exact ⟨hblanks, assembleLine_comment hsemi hblanks comment⟩

/-! ### The canonical text (R85) -/

/-- The characters of a token: none of them is a blank or starts a comment. -/
def TokenChars (tok : List Char) : Prop := ∀ c ∈ tok, isBlank c = false ∧ c ≠ ';'

theorem splitTokens_append {word : List Char} (h : TokenChars word) (tok rest : List Char) :
    splitTokens tok (word ++ rest) = splitTokens (tok ++ word) rest := by
  induction word generalizing tok with
  | nil => simp
  | cons c word ih =>
    obtain ⟨⟨hc, -⟩, hword⟩ := List.forall_mem_cons.mp h
    simp [splitTokens, hc, ih hword]

theorem TokenChars.not_mem {tok : List Char} (h : TokenChars tok) {c : Char}
    (hc : isBlank c = true ∨ c = ';') : c ∉ tok := by
  intro hmem
  obtain ⟨hblank, hsemi⟩ := h c hmem
  simp_all

/-- The digit characters of the canonical text. -/
theorem digitOf_hexChar {d : Nat} (h : d < 16) : DigitOf 16 (hexChar d) d := by
  refine digitOf_of_hexDigit h ?_
  revert d
  decide

theorem tokenChars_hexChar {d : Nat} (h : d < 16) :
    isBlank (hexChar d) = false ∧ hexChar d ≠ ';' := by
  revert d
  decide

/-- The four hexadecimal digits of a word. -/
def wordDigits (w : Word) : List Nat :=
  [w.toNat / 4096 % 16, w.toNat / 256 % 16, w.toNat / 16 % 16, w.toNat % 16]

theorem hexText_eq (w : Word) : hexText w = '0' :: 'x' :: (wordDigits w).map hexChar := rfl

theorem wordDigits_lt (w : Word) : ∀ d ∈ wordDigits w, d < 16 := by
  simp [wordDigits, Nat.mod_lt]

theorem ofDigits_wordDigits (w : Word) : Nat.ofDigits 16 (wordDigits w).reverse = w.toNat := by
  have hw := w.isLt
  simp only [wordDigits, List.reverse_cons, List.reverse_nil, List.nil_append, List.cons_append,
    Nat.ofDigits_cons, Nat.ofDigits_nil]
  omega

theorem numeral_wordDigits (w : Word) : Numeral 16 ((wordDigits w).map hexChar) w.toNat := by
  refine ⟨nofun, wordDigits w, ?_, (ofDigits_wordDigits w).symm⟩
  rw [List.forall₂_map_left_iff, List.forall₂_same]
  exact fun d hd => digitOf_hexChar (wordDigits_lt w d hd)

theorem parseNumber_hexText (line : List Char) (w : Word) : parseNumber line (hexText w) = .ok w :=
  Prefixed.parseNumber_eq_ok (.inl ⟨rfl, hexText_eq w⟩) (numeral_wordDigits w) line

theorem parseOperand_operandText (line : List Char) (v : Value) :
    parseOperand line (operandText v) = .ok v := by
  cases v with
  | literal k =>
    rw [operandText, parseOperand_of_head_ne (by simp [hexText]), parseNumber_hexText]
    rfl
  | address a => rw [operandText, parseOperand_star, parseNumber_hexText]; rfl

theorem tokenChars_mnemonicOf (i : Instr) : TokenChars (mnemonicOf i) := by
  cases i <;> simp [TokenChars, mnemonicOf, isBlank]

theorem tokenChars_hexText (w : Word) : TokenChars (hexText w) := by
  intro c hc
  rw [hexText_eq, List.mem_cons, List.mem_cons, List.mem_map] at hc
  rcases hc with rfl | rfl | ⟨d, hd, rfl⟩
  · decide
  · decide
  · exact tokenChars_hexChar (wordDigits_lt w d hd)

theorem tokenChars_operandText (v : Value) : TokenChars (operandText v) := by
  cases v with
  | literal k => exact tokenChars_hexText k
  | address a => exact List.forall_mem_cons.mpr ⟨by decide, tokenChars_hexText a⟩

theorem mnemonicOf_ne_nil (i : Instr) : mnemonicOf i ≠ [] := by
  cases i <;> exact nofun

theorem operandText_ne_nil (v : Value) : operandText v ≠ [] := by
  cases v <;> exact nofun

theorem flushToken_of_ne_nil {tok : List Char} (h : tok ≠ []) (rest : List (List Char)) :
    flushToken tok rest = tok :: rest := by
  cases tok with
  | nil => exact absurd rfl h
  | cons c tok => rfl

/-- A word that ends the line is the last token. -/
theorem splitTokens_word {word : List Char} (h : TokenChars word) (hne : word ≠ []) :
    splitTokens [] word = [word] := by
  simpa [splitTokens, flushToken_of_ne_nil hne] using splitTokens_append h [] []

/-- A word before a space is the first token. -/
theorem splitTokens_word_space {word : List Char} (h : TokenChars word) (hne : word ≠ [])
    (rest : List Char) : splitTokens [] (word ++ ' ' :: rest) = word :: splitTokens [] rest := by
  rw [splitTokens_append h, List.nil_append, splitTokens, if_pos (by rfl), flushToken_of_ne_nil hne]

theorem not_mem_instrText (i : Instr) {c : Char} (hc : c = '\n' ∨ c = ';') : c ∉ instrText i := by
  have htoken : isBlank c = true ∨ c = ';' := by
    rcases hc with rfl | rfl
    · exact .inl rfl
    · exact .inr rfl
  have hspace : c ≠ ' ' := by rcases hc with rfl | rfl <;> decide
  have hname : c ∉ mnemonicOf i := (tokenChars_mnemonicOf i).not_mem htoken
  unfold instrText
  cases i.operand with
  | none => exact hname
  | some v => simp [hname, hspace, (tokenChars_operandText v).not_mem htoken]

/-- The tokens of the canonical text are the mnemonic and, where there is one, the operand's text. -/
theorem assembleLine_instrText (i : Instr) : assembleLine (instrText i) = .ok (some i) := by
  have hname := tokenChars_mnemonicOf i
  have hne := mnemonicOf_ne_nil i
  rw [assembleLine, stripComment_eq_self (not_mem_instrText i (.inr rfl)), instrText]
  cases hv : i.operand with
  | none =>
    simp only [splitTokens_word hname hne, parseTokens_of_operand_none hv]
    rfl
  | some v =>
    have htokens : splitTokens [] (mnemonicOf i ++ ' ' :: operandText v) =
        [mnemonicOf i, operandText v] := by
      rw [splitTokens_word_space hname hne,
        splitTokens_word (tokenChars_operandText v) (operandText_ne_nil v)]
    simp only [htokens, parseTokens_eq_ok hv (parseOperand_operandText _ v)]
    rfl

/-! ### The lines of a text (R82) -/

theorem splitLines_append {word : List Char} (h : '\n' ∉ word) (line rest : List Char) :
    splitLines line (word ++ '\n' :: rest) = (line ++ word) :: splitLines [] rest := by
  induction word generalizing line with
  | nil => simp [splitLines]
  | cons c word ih =>
    obtain ⟨hc, hword⟩ : '\n' ≠ c ∧ '\n' ∉ word := by simpa using h
    simp [splitLines, Ne.symm hc, ih hword]

/-- Settles O9, by induction on the Program: the first line of its text is its first instruction's, and
the tokens of that line give it back. -/
theorem assemblerReadsCanonicalText : Obligations.AssemblerReadsCanonicalText := by
  intro p
  induction p with
  | nil => rfl
  | cons i p ih =>
    rw [assemble, programText, splitLines_append (not_mem_instrText i (.inl rfl)), List.nil_append,
      assembleLines, assembleLine_instrText]
    rw [assemble] at ih
    simp only [ih]
    rfl

end Sys2Proof.Machine
end

section
/-! PROOFS. Records after a decodable stream (spec/30_encoding.md R61, R62, R65, R66, R72). Whatever
follows whole records is decoded at their length's offset, so each statement is about one record there. -/

namespace Sys2Proof

/-- What follows a stream that decodes is decoded at that stream's length. -/
theorem decodeProgram_append {before : List Byte} {p : Program} (h : decodeProgram before = .ok p)
    (rest : List Byte) :
    decodeProgram (before ++ rest) = (decodeFrom before.length rest).map (p ++ ·) := by
  rw [decodeProgram, decodeFrom_append 0 before rest p h, Nat.zero_add]

theorem decodeProgram_append_error {before : List Byte} {p : Program}
    (h : decodeProgram before = .ok p) {rest : List Byte} {e : CodecError}
    (hrest : decodeFrom before.length rest = .error e) :
    decodeProgram (before ++ rest) = .error e := by
  rw [decodeProgram_append h, hrest]
  rfl

theorem takesOperand_eq_false {op : Byte} (h : op.toNat ≤ 0x04) : takesOperand op = false := by
  simpa [takesOperand] using h

theorem takesOperand_eq_true {op : Byte} (h : 0x04 < op.toNat) : takesOperand op = true := by
  simpa [takesOperand] using h

theorem exists_valueLess {op : Byte} (h : op.toNat ≤ 0x04) : ∃ i, valueLess op = some i :=
  Option.isSome_iff_exists.mp (by simp [valueLess_isSome, takesOperand_eq_false h])

theorem valueLess_eq_none {op : Byte} (h : 0x04 < op.toNat) : valueLess op = none := by
  simpa [takesOperand_eq_true h] using valueLess_isSome op

theorem valueCarrying_eq_none {op : Byte} (h : 0x15 ≤ op.toNat) : valueCarrying op = none := by
  have hknown : knownOpcode op = false := decide_eq_false (Nat.not_lt.mpr h)
  simpa [hknown] using valueCarrying_isSome op

/-- The mode byte of an F0 record says nothing (R62). -/
theorem decodeFrom_valueLess_mode {op : Byte} (h : op.toNat ≤ 0x04) (off : Nat) (mode mode' : Byte)
    (rest : List Byte) :
    decodeFrom off (mode :: op :: rest) = decodeFrom off (mode' :: op :: rest) := by
  obtain ⟨i, hi⟩ := exists_valueLess h
  rw [decodeFrom_valueLess hi, decodeFrom_valueLess hi]

/-- Every mode byte but 0x00 says Address (R61). -/
theorem decodeFrom_valueCarrying_mode {op mode mode' : Byte} (h : 0x04 < op.toNat)
    (hmode : mode ≠ 0x00#8) (hmode' : mode' ≠ 0x00#8) (off : Nat) (hi lo : Byte) (rest : List Byte) :
    decodeFrom off (mode :: op :: hi :: lo :: rest) =
      decodeFrom off (mode' :: op :: hi :: lo :: rest) := by
  have hless := valueLess_eq_none h
  cases hm : valueCarrying op with
  | none => rw [decodeFrom_unknown hless hm, decodeFrom_unknown hless hm]
  | some mk =>
    rw [decodeFrom_valueCarrying hless hm, decodeFrom_valueCarrying hless hm]
    simp only [operandOf, if_neg hmode, if_neg hmode']

/-- Settles O2: neither record format tells the two mode bytes apart. -/
theorem nonCanonicalModesDecodeAlike : Obligations.NonCanonicalModesDecodeAlike := by
  intro before p hbefore
  refine ⟨fun mode op rest hop => ?_, fun mode op hi lo rest hop hmode => ?_⟩
  · rw [decodeProgram_append hbefore, decodeProgram_append hbefore,
      decodeFrom_valueLess_mode hop _ mode 0x00#8]
  · rw [decodeProgram_append hbefore, decodeProgram_append hbefore,
      decodeFrom_valueCarrying_mode (mode' := 0x10#8) hop hmode (by decide)]

/-- Settles O3: an opcode byte above 0x14 names a variant of neither format. -/
theorem unknownOpcodeFailsTheDecode : Obligations.UnknownOpcodeFailsTheDecode := by
  intro before p hbefore mode op hi lo rest hop
  exact decodeProgram_append_error hbefore
    (decodeFrom_unknown (valueLess_eq_none (by omega)) (valueCarrying_eq_none hop))

/-- Settles O4: the header needs two bytes and the value two more, whatever variant the opcode byte
names. -/
theorem truncatedStreamFailsTheDecode : Obligations.TruncatedStreamFailsTheDecode := by
  intro before p hbefore
  have hshort (mode op : Byte) (rest : List Byte) (hop : 0x04 < op.toNat) (hlen : rest.length < 2) :
      decodeProgram (before ++ mode :: op :: rest) = .error (.truncatedStream before.length) :=
    decodeProgram_append_error hbefore (decodeFrom_short (valueLess_eq_none hop) hlen)
  exact ⟨fun b => decodeProgram_append_error hbefore (decodeFrom_one _ b),
    fun mode op hop => hshort mode op [] hop (by decide),
    fun mode op hi hop => hshort mode op [hi] hop Nat.one_lt_two⟩

/-- Settles O7: each record is one of a known opcode byte, decoded by the law of its format. -/
theorem writtenRecordsDecode : Obligations.WrittenRecordsDecode := by
  obtain ⟨-, hout⟩ := Machine.encodedF0_of_operand_none (i := .out) rfl
  obtain ⟨-, hrtn⟩ := Machine.encodedF0_of_operand_none (i := .rtn) rfl
  obtain ⟨-, -, hsetLiteral, hsetAddress⟩ := Machine.encodedF1_of_valueCarrying (opcode := 0x06#8) rfl
  obtain ⟨-, -, hgtnLiteral, -⟩ := Machine.encodedF1_of_valueCarrying (opcode := 0x0D#8) rfl
  obtain ⟨-, -, -, hextAddress⟩ := Machine.encodedF1_of_valueCarrying (opcode := 0x14#8) rfl
  exact ⟨hout, hrtn, hsetLiteral 0x00#8 0x05#8, hsetAddress 0x10#8 0x12#8 0x34#8 (by decide),
    hgtnLiteral 0x80#8 0x01#8, hextAddress 0x80#8 0xFF#8 0xFE#8 (by decide)⟩

end Sys2Proof
end

section
/-! PROOFS. Data memory (spec/10_state.md R15, spec/00_scope.md R4, log 1): one cell written, and the
canonical form as the list of the cells that differ from 0, which the cells' contents determine. -/

namespace Sys2Proof.Machine

/-- Settles O12: `MemWrite` replaces the memory by one in which the one cell is set. -/
theorem memWriteSetsOneCell : Obligations.MemWriteSetsOneCell :=
  fun s a v => ⟨s.writeCell_storedOnly a v, ⟨rfl, rfl, rfl, rfl, rfl, rfl, rfl, rfl⟩, rfl⟩

/-- With strictly rising keys, a table finds exactly the entries it holds. -/
theorem Table.find_eq_some_iff_mem {β : Type} {t : List (Nat × β)} (h : Table.Rising t) (k : Nat)
    (v : β) : Table.find k t = some v ↔ (k, v) ∈ t := by
  induction t with
  | nil => simp
  | cons e rest ih =>
    obtain ⟨he, hrest⟩ := List.pairwise_cons.mp h
    rw [Table.find_cons, List.mem_cons]
    split
    · next hk =>
      have hnot : (k, v) ∉ rest := fun hmem => (he _ hmem).ne hk
      simp [hnot, Prod.ext_iff, hk, eq_comm]
    · next hk =>
      have hne : (k, v) ≠ e := fun heq => hk (heq ▸ rfl)
      simp [hne, ih hrest]

/-- A canonical memory lists the cells that differ from 0. -/
theorem Memory.mem_iff_of_wf {m : Memory} (h : Memory.wf m = true) (e : Nat × Word) :
    e ∈ m ↔ ∃ a : Word, e = (a.toNat, Memory.read m a) ∧ Memory.read m a ≠ 0#16 := by
  obtain ⟨hall, hrising⟩ := (Memory.wf_iff m).mp h
  constructor
  · intro he
    obtain ⟨hlt, hne⟩ := hall e he
    have hkey : (BitVec.ofNat 16 e.1).toNat = e.1 := Nat.mod_eq_of_lt hlt
    have hread : Memory.read m (BitVec.ofNat 16 e.1) = e.2 := by
      rw [Memory.read, hkey, (Table.find_eq_some_iff_mem hrising e.1 e.2).mpr he, Option.getD_some]
    exact ⟨BitVec.ofNat 16 e.1, by rw [hkey, hread], by rwa [hread]⟩
  · rintro ⟨a, rfl, hne⟩
    rw [← Table.find_eq_some_iff_mem hrising]
    unfold Memory.read at hne ⊢
    cases hf : Table.find a.toNat m with
    | none => exact absurd (by rw [hf]; rfl) hne
    | some v => rfl

theorem Memory.eq_of_mem_iff {m n : Memory} (hm : Memory.wf m = true) (hn : Memory.wf n = true)
    (h : ∀ e, e ∈ m ↔ e ∈ n) : m = n := by
  obtain ⟨-, hm⟩ := (Memory.wf_iff m).mp hm
  obtain ⟨-, hn⟩ := (Memory.wf_iff n).mp hn
  have hnodup {t : Memory} (ht : Table.Rising t) : t.Nodup :=
    ht.imp fun hlt heq => hlt.ne (congrArg Prod.fst heq)
  exact ((List.perm_ext_iff_of_nodup (hnodup hm) (hnodup hn)).mpr h).eq_of_pairwise
    (fun _ _ _ _ hlt hgt => absurd hlt hgt.not_gt) hm hn

/-- Settles O13: each of the two lists the cells that differ from 0 with their contents, which are the
same. -/
theorem canonicalMemoriesWithEqualCellsAreEqual :
    Obligations.CanonicalMemoriesWithEqualCellsAreEqual := by
  intro m n hm hn hread
  refine Memory.eq_of_mem_iff hm hn fun e => ?_
  rw [Memory.mem_iff_of_wf hm, Memory.mem_iff_of_wf hn]
  simp only [hread]

end Sys2Proof.Machine
end

section
/-! PROOFS. The load phase, the main loop and the run result (spec/10_state.md R36 to R38,
spec/40_engine.md R90 to R99): one equation of `step` for each phase of a run, and one of the run result
for each loader and status. -/

namespace Sys2Proof.Machine

/-! ### The start of a run (R38, R161) -/

/-- Settles O16, by the fields of the start state. -/
theorem runStartsFromTheResetValues : Obligations.RunStartsFromTheResetValues :=
  ⟨State.reset_eq_start, fun _ => ⟨fun a => Memory.read_nil a, rfl, rfl, rfl, rfl, rfl, rfl, rfl⟩⟩

/-! ### One step, by the phase of the run (R90, R94 to R99) -/

theorem step_of_pending {s : State} {src : Source} (h : s.loader = .pending src) :
    step s = .next (s.load src) := by
  simp only [step, h]

theorem step_of_failed {s : State} {e : LoadError} (h : s.loader = .failed e) : step s = .next s := by
  simp only [step, h]

/-! ### The run result (R36) -/

theorem State.result_of_pending {s : State} {src : Source} (h : s.loader = .pending src) :
    s.result = none := by
  simp only [State.result, h]

theorem State.result_of_failed {s : State} {e : LoadError} (h : s.loader = .failed e) :
    s.result = some (.loadError e.code e) := by
  simp only [State.result, h]

theorem State.result_of_executing {s : State} (h : s.executing) : s.result = none := by
  obtain ⟨hloaded, hrunning⟩ := h
  simp only [State.result, hloaded, hrunning]

theorem State.result_of_halted {s : State} {c : Word} (hloaded : s.loader = .loaded)
    (h : s.status = .halted c) : s.result = some (.exit c) := by
  simp only [State.result, hloaded, h]

theorem State.result_of_faulted {s : State} {e : RuntimeError} (hloaded : s.loader = .loaded)
    (h : s.status = .faulted e) : s.result = some (.runtimeError e.code e) := by
  simp only [State.result, hloaded, h]

/-- Settles O25: one equation of the result for each loader and status, and the code of each error. -/
theorem runResultReportsTheOutcome : Obligations.RunResultReportsTheOutcome := by
  refine ⟨fun _ _ h => State.result_of_pending h, fun s e h => ?_, fun s hloaded =>
    ⟨fun h => State.result_of_executing ⟨hloaded, h⟩, fun _ h => State.result_of_halted hloaded h,
      fun e h => ?_⟩⟩
  · rw [State.result_of_failed h]
    cases e with
    | codec e => cases e <;> rfl
    | programTooLarge n => rfl
    | lex e => cases e <;> rfl
  · rw [State.result_of_faulted hloaded h]
    cases e <;> rfl

theorem State.ended_of_failed {s : State} {e : LoadError} (h : s.loader = .failed e) : s.ended := by
  rw [State.ended, State.result_of_failed h, Option.isSome_some]

theorem State.not_ended_of_executing {s : State} (h : s.executing) : ¬ s.ended := by
  simp [State.ended, State.result_of_executing h]

/-- Settles O21: of the cases of a step, the load and the two of an executing run have no result. -/
theorem endedRunsChangeNothing : Obligations.EndedRunsChangeNothing := by
  intro s hended
  rcases step_cases s with ⟨src, hpending, -⟩ | ⟨x, -, hstep⟩ | ⟨-, -, hstep⟩ | ⟨hexec, -, -⟩ |
    ⟨i, ⟨hexec, -⟩, -⟩
  · simp [State.ended, State.result_of_pending hpending] at hended
  · exact hstep
  · exact hstep
  · exact absurd hended (State.not_ended_of_executing hexec)
  · exact absurd hended (State.not_ended_of_executing hexec)

/-! ### The load (R69, R84, R90) -/

theorem readSource_binary_ok {bytes : List Byte} {p : Program} (h : decodeProgram bytes = .ok p) :
    readSource (.binary bytes) = .ok p := by
  rw [readSource, h]
  rfl

theorem readSource_text_ok {text : List Char} {p : Program} (h : assemble text = .ok p) :
    readSource (.text text) = .ok p := by
  rw [readSource, h]
  rfl

theorem readSource_binary_error {bytes : List Byte} {e : CodecError}
    (h : decodeProgram bytes = .error e) : readSource (.binary bytes) = .error (.codec e) := by
  rw [readSource, h]
  rfl

theorem readSource_text_error {text : List Char} {e : LexError} (h : assemble text = .error e) :
    readSource (.text text) = .error (.lex e) := by
  rw [readSource, h]
  rfl

/-- A source that reads is started or, over the capacity, refused. -/
theorem State.load_of_readSource_ok {s : State} {src : Source} {p : Program}
    (h : readSource src = .ok p) :
    s.load src = if p.length ≤ Config.programCapacity then { State.start p with input := s.input }
      else { s with loader := .failed (.programTooLarge p.length) } := by
  rw [State.load, loadProgram, h]
  by_cases hfits : p.length ≤ Config.programCapacity <;> simp [Program.fits, hfits]

theorem State.load_of_readSource_error {s : State} {src : Source} {e : LoadError}
    (h : readSource src = .error e) : s.load src = { s with loader := .failed e } := by
  rw [State.load, loadProgram, h]

/-- Settles O17: the load step on a source that reads, whichever of the two it is. -/
theorem loadStartsTheRunOrRefusesTheProgram : Obligations.LoadStartsTheRunOrRefusesTheProgram := by
  intro s src p hpending hsrc
  have hread : readSource src = .ok p := by
    rcases hsrc with ⟨bytes, rfl, h⟩ | ⟨text, rfl, h⟩
    · exact readSource_binary_ok h
    · exact readSource_text_ok h
  rw [step_of_pending hpending, State.load_of_readSource_ok hread]
  rfl

/-- A source that does not read ends the run with its error, and the next step changes nothing. -/
theorem step_of_readSource_error {s : State} {src : Source} {e : LoadError}
    (hpending : s.loader = .pending src) (h : readSource src = .error e) :
    ∃ t, step s = .next t ∧ t = { s with loader := .failed e } ∧
      t.result = some (.loadError e.code e) ∧ step t = .next t :=
  ⟨_, step_of_pending hpending, State.load_of_readSource_error h,
    State.result_of_failed (by rw [State.load_of_readSource_error h]),
    step_of_failed (by rw [State.load_of_readSource_error h])⟩

/-- Settles O18: the load step on a source that does not read, with the code of each error. -/
theorem malformedSourceIsALoadError : Obligations.MalformedSourceIsALoadError := by
  refine ⟨fun s bytes e hpending h => ?_, fun s text e hpending h => ?_⟩
  · have hstep := step_of_readSource_error hpending (readSource_binary_error h)
    cases e <;> exact hstep
  · have hstep := step_of_readSource_error hpending (readSource_text_error h)
    cases e <;> exact hstep

/-! ### The main loop (R96) -/

theorem encodeProgram_append (p q : Program) :
    encodeProgram (p ++ q) = encodeProgram p ++ encodeProgram q := by
  induction p with
  | nil => rfl
  | cons i p ih => rw [List.cons_append, encodeProgram, encodeProgram, ih, List.append_assoc]

/-- Settles O19: the step in the main loop, and the decoder giving back the Program that was encoded. -/
theorem stepRunsTheFetchedInstruction : Obligations.StepRunsTheFetchedInstruction := by
  refine ⟨fun s i hloaded hrunning hfetch => step_of_runsAt ⟨⟨hloaded, hrunning⟩, hfetch⟩,
    fun s p q i hloaded hrunning hdecode hpc => step_of_runsAt ⟨⟨hloaded, hrunning⟩, ?_⟩⟩
  have hbytes : encodeProgram p ++ encode i ++ encodeProgram q = encodeProgram (p ++ i :: q) := by
    rw [encodeProgram_append, encodeProgram, List.append_assoc]
  rw [hbytes, decodeProgram_encodeProgram] at hdecode
  rw [← Except.ok.inj hdecode, hpc]
  simp

end Sys2Proof.Machine
end

section
/-! PROOFS. CUT, CIN and DMP (spec/41_io.md R106 to R108, R170): what each leaves, from its one equation
in Laws/Ops. -/

namespace Sys2Proof.Machine

theorem exec_cut (s : State) : exec .cut s = execCut s := rfl

theorem exec_cin (s : State) : exec .cin s = execCin s := rfl

theorem exec_dmp (s : State) :
    exec .dmp s = s.finish (s.emitDiag (.dump s.mem)) .next := rfl

/-! ### CUT (R106) -/

theorem isScalarValue_eq_false_iff (v : Word) :
    isScalarValue v = false ↔ 0xD800 ≤ v.toNat ∧ v.toNat ≤ 0xDFFF := by
  simp [isScalarValue]

theorem toNat_charOf {v : Word} (h : isScalarValue v = true) : (charOf v).toNat = v.toNat := by
  have hsurrogate : ¬ (0xD800 ≤ v.toNat ∧ v.toNat ≤ 0xDFFF) := by
    rw [← isScalarValue_eq_false_iff, h]
    simp
  have hvalid : v.toNat.isValidChar := by
    have hv := v.isLt
    unfold Nat.isValidChar
    omega
  rw [charOf, Char.toNat_ofNat, if_pos hvalid]

theorem exec_cut_of_isScalarValue {s : State} (h : isScalarValue s.targetValue = true) :
    exec .cut s = .next ((s.emit (.char (charOf s.targetValue))).setPc (s.pc + 1)) := by
  rw [exec_cut, execCut_eq]
  exact congrArg _ (if_pos h)

theorem exec_cut_of_surrogate {s : State} (h : isScalarValue s.targetValue = false) :
    exec .cut s = .next (s.raise (.invalidCharacter s.targetValue)) := by
  rw [exec_cut, execCut_eq]
  exact congrArg _ (if_neg (Bool.eq_false_iff.mp h))

/-- Settles O27: a target value that is no surrogate is the code point of a character. -/
theorem cutEmitsACharacter : Obligations.CutEmitsACharacter := by
  refine ⟨encodedF0_of_operand_none rfl, fun s h => ?_⟩
  have hscalar : isScalarValue s.targetValue = true := by
    rwa [← State.targetValue_eq_readCell, ← isScalarValue_eq_false_iff, Bool.not_eq_false] at h
  exact ⟨charOf s.targetValue, toNat_charOf hscalar, exec_cut_of_isScalarValue hscalar⟩

/-- Settles O28: CUT of any other value raises. -/
theorem cutOfASurrogateFaults : Obligations.CutOfASurrogateFaults :=
  fun _ hlo hhi => exec_cut_of_surrogate ((isScalarValue_eq_false_iff _).mpr ⟨hlo, hhi⟩)

/-! ### CIN (R107, R170) -/

theorem exec_cin_of_input_cons {s : State} {c : Char} {rest : List Char} (h : s.input = c :: rest) :
    exec .cin s = .next (((s.inputTaken.writeCell s.ar (Config.cinStore c)).emit
      (.char c)).setPc (s.pc + 1)) := by
  simp only [exec_cin, execCin_eq, h]

theorem exec_cin_of_input_nil {s : State} (h : s.input = []) : exec .cin s = .next s := by
  simp only [exec_cin, execCin_eq, h]

theorem toNat_cinStore {c : Char} (h : c.toNat ≤ 0xFFFF) : (Config.cinStore c).toNat = c.toNat := by
  rw [Config.cinStore, if_pos h, BitVec.toNat_ofNat]
  omega

/-- Settles O29, by the fields of the state after CIN took a character. -/
theorem cinStoresAndEchoesTheCharacter : Obligations.CinStoresAndEchoesTheCharacter := by
  refine ⟨encodedF0_of_operand_none rfl, fun _ => toNat_cinStore, fun s c rest h => ?_⟩
  have hrest : s.input.tail = rest := by rw [h, List.tail_cons]
  exact ⟨_, exec_cin_of_input_cons h, .of_mem rfl, rfl, hrest, rfl, rfl, rfl, rfl, rfl, rfl, rfl⟩

theorem State.waiting.step_eq {s : State} (h : s.waiting) : step s = .next s := by
  obtain ⟨hruns, hinput⟩ := h
  rw [step_of_runsAt hruns, exec_cin_of_input_nil hinput]

/-- Settles O30: with nothing supplied CIN waits, and with the supplied character it is the CIN of
O29. -/
theorem cinWaitsUntilACharacterIsSupplied : Obligations.CinWaitsUntilACharacterIsSupplied := by
  refine fun s hwait => ⟨hwait.step_eq, fun c => ?_⟩
  obtain ⟨hruns, hinput⟩ := hwait
  have hsupplied : (s.supply c).runsAt .cin := hruns
  have hcons : (s.supply c).input = [c] := by rw [State.supply_input, hinput, List.nil_append]
  obtain ⟨-, -, hcin⟩ := cinStoresAndEchoesTheCharacter
  obtain ⟨t, hexec, hstored, houtput, hrest, hpc, -⟩ := hcin (s.supply c) c [] hcons
  exact ⟨t, (step_of_runsAt hsupplied).trans hexec, hstored, houtput, hrest, hpc⟩

/-! ### DMP (R108) -/

/-- Settles O31: the token holds the memory, whose values in index order are the cells. -/
theorem dmpEmitsEveryCell : Obligations.DmpEmitsEveryCell := by
  refine ⟨encodedF0_of_operand_none rfl, fun s => ⟨.dump s.mem, ?_, DiagToken.values_length s.mem,
    DiagToken.values_getElem s.mem⟩⟩
  rw [exec_dmp, State.finish_next, State.emitDiag, State.setPc]

end Sys2Proof.Machine
end

section
/-! PROOFS. SUB and DIV (spec/42_data_arith.md R113, R115), and the ordering compares (spec/43_compare.md
R121 to R124). -/

namespace Sys2Proof.Machine

/-! ### SUB and DIV -/

theorem exec_sub (op : Value) (s : State) : exec (.sub op) s = s.combineTarget aluSub op := rfl

theorem exec_div (op : Value) (s : State) : exec (.div op) s = execDiv op s := rfl

theorem toNat_aluSub (x v : Word) : ((aluSub x v).toNat : Int) = (x.toNat - v.toNat : Int) % 65536 := by
  rw [aluSub, u16, BitVec.toNat_ofInt]
  exact Int.toNat_of_nonneg (Int.emod_nonneg _ (by decide))

theorem toNat_aluDiv (x v : Word) : (aluDiv x v).toNat = x.toNat / v.toNat := by
  rw [aluDiv, BitVec.toNat_ofNat]
  exact Nat.mod_eq_of_lt (lt_of_le_of_lt (Nat.div_le_self _ _) x.isLt)

theorem exec_div_of_ne_zero {s : State} {op : Value} (h : s.resolve op ≠ 0#16) :
    exec (.div op) s = s.combineTarget aluDiv op := by
  rw [exec_div, execDiv, if_neg h]

theorem exec_div_of_eq_zero {s : State} {op : Value} (h : s.resolve op = 0#16) :
    exec (.div op) s = .next (s.raise .divisionByZero) := by
  rw [exec_div, execDiv, if_pos h, State.finish_raise]

/-- Settles O35: SUB combines by the narrowed difference. -/
theorem subStoresTheDifferenceModulo65536 : Obligations.SubStoresTheDifferenceModulo65536 := by
  refine ⟨encodedF1_of_valueCarrying rfl, fun op s => ?_⟩
  rw [exec_sub]
  obtain ⟨t, hnext, hframe⟩ := s.combineTarget_stores aluSub op
  exact ⟨t, _, hnext, toNat_aluSub .., hframe⟩

/-- Settles O37: DIV by another value than 0 combines by the quotient, and by 0 it raises. -/
theorem divStoresTheQuotientOrFaults : Obligations.DivStoresTheQuotientOrFaults := by
  refine ⟨encodedF1_of_valueCarrying rfl, fun op s h => ?_, fun op s h => exec_div_of_eq_zero h⟩
  rw [exec_div_of_ne_zero h]
  obtain ⟨t, hnext, hframe⟩ := s.combineTarget_stores aluDiv op
  exact ⟨t, _, hnext, toNat_aluDiv .., hframe⟩

/-! ### The ordering compares -/

theorem exec_gtn (op : Value) (s : State) : exec (.gtn op) s = s.compareTarget cmpGt op := rfl

theorem exec_ltn (op : Value) (s : State) : exec (.ltn op) s = s.compareTarget cmpLt op := rfl

theorem exec_gte (op : Value) (s : State) : exec (.gte op) s = s.compareTarget cmpGe op := rfl

theorem exec_lte (op : Value) (s : State) : exec (.lte op) s = s.compareTarget cmpLe op := rfl

/-- Settles O39: each is the compare law with its own predicate. -/
theorem orderComparesSetTheFlagUnsigned : Obligations.OrderComparesSetTheFlagUnsigned := by
  refine ⟨encodedF1_of_valueCarrying rfl, encodedF1_of_valueCarrying rfl,
    encodedF1_of_valueCarrying rfl, encodedF1_of_valueCarrying rfl, fun op s => ?_⟩
  simp only [exec_gtn, exec_ltn, exec_gte, exec_lte, ← flagOf_decide]
  exact ⟨s.compareTarget_stores cmpGt op, s.compareTarget_stores cmpLt op,
    s.compareTarget_stores cmpGe op, s.compareTarget_stores cmpLe op⟩

end Sys2Proof.Machine
end

section
/-! PROOFS. BNE, BEQ, JMP and EXT (spec/44_control.md R132 to R136), and their two errors
(spec/60_exceptions.md R143, R147, R149). -/

namespace Sys2Proof.Machine

theorem exec_bne (op : Value) (s : State) : exec (.bne op) s = s.branchIf s.flagClear op := rfl

theorem exec_beq (op : Value) (s : State) : exec (.beq op) s = s.branchIf s.flagSet op := rfl

theorem exec_jmp (op : Value) (s : State) : exec (.jmp op) s = execJmp op s := rfl

theorem exec_ext (op : Value) (s : State) : exec (.ext op) s = s.finish s (.halt (s.resolve op)) := rfl

/-- A branch to a declared key. -/
theorem State.branchIf_of_declared {s : State} {op : Value} {t : Nat}
    (h : s.labelIndex (s.resolve op) = some t) (taken : Bool) :
    s.branchIf taken op = .next (s.setPc (if taken then t else s.pc + 1)) := by
  simp only [State.branchIf_eq, h]

/-- Settles O42: BNE's branch is taken when cell 0xFFFD is 0. -/
theorem bneBranchesOnFlagZero : Obligations.BneBranchesOnFlagZero := by
  refine ⟨encodedF1_of_valueCarrying rfl, fun op s t h => ?_⟩
  rw [exec_bne, State.branchIf_of_declared h]
  simp only [State.flagClear, beq_iff_eq]
  rfl

/-- Settles O43: BEQ's branch is taken when cell 0xFFFD is 1. -/
theorem beqBranchesOnFlagOne : Obligations.BeqBranchesOnFlagOne := by
  refine ⟨encodedF1_of_valueCarrying rfl, fun op s t h => ?_⟩
  rw [exec_beq, State.branchIf_of_declared h]
  simp only [State.flagSet, beq_iff_eq]
  rfl

theorem exec_jmp_of_declared {s : State} {op : Value} {t : Nat}
    (h : s.labelIndex (s.resolve op) = some t)
    (hdepth : Config.callStackDepth ≠ some s.callStack.length) :
    exec (.jmp op) s = .next ((s.push s.pc).setPc t) := by
  rw [ne_eq, ← s.callStackFull_iff] at hdepth
  simp only [exec_jmp, execJmp_eq, h, if_neg hdepth]

theorem exec_jmp_of_full {s : State} {op : Value} (h : s.labelIndex (s.resolve op) ≠ none)
    (hdepth : Config.callStackDepth = some s.callStack.length) :
    exec (.jmp op) s = .next (s.raise .callStackOverflow) := by
  obtain ⟨t, ht⟩ := Option.ne_none_iff_exists'.mp h
  rw [← s.callStackFull_iff] at hdepth
  simp only [exec_jmp, execJmp_eq, ht, if_pos hdepth]

/-- Settles O44: with room on the call stack JMP to a declared key is the push and the branch. -/
theorem jmpPushesItsOwnIndex : Obligations.JmpPushesItsOwnIndex :=
  ⟨encodedF1_of_valueCarrying rfl, fun _ _ _ h hdepth => exec_jmp_of_declared h hdepth⟩

/-- The label lookup comes first in all three (R149). -/
theorem exec_of_undeclared {s : State} {op : Value} {i : Instr}
    (hi : i = .bne op ∨ i = .beq op ∨ i = .jmp op) (h : s.labelIndex (s.resolve op) = none) :
    exec i s = .next (s.raise (.undeclaredLabel (s.resolve op))) := by
  rcases hi with rfl | rfl | rfl
  · simp only [exec_bne, State.branchIf_eq, h]
  · simp only [exec_beq, State.branchIf_eq, h]
  · simp only [exec_jmp, execJmp_eq, h]

/-- Settles O45: the lookup fails first, and of JMP's two ends at a declared key only the one at a full
stack leaves the running status. -/
theorem labelAndOverflowErrorsComeInOrder : Obligations.LabelAndOverflowErrorsComeInOrder := by
  refine ⟨fun op s h i hi => exec_of_undeclared hi h, fun op s t hdeclared hexec hrunning => ?_⟩
  constructor
  · intro hfault
    by_contra hdepth
    obtain ⟨j, hj⟩ := Option.ne_none_iff_exists'.mp hdeclared
    rw [exec_jmp_of_declared hj hdepth] at hexec
    cases hexec
    rw [State.setPc_status, State.push_status, hrunning] at hfault
    cases hfault
  · intro hdepth
    rw [exec_jmp_of_full hdeclared hdepth] at hexec
    cases hexec
    rfl

/-- Settles O46: EXT's end is the halt, which changes only the status. -/
theorem extHaltsWithTheOperand : Obligations.ExtHaltsWithTheOperand := by
  refine ⟨encodedF1_of_valueCarrying rfl, fun op s => ?_⟩
  rw [exec_ext, State.finish_halt, State.halt]

end Sys2Proof.Machine
end

section
/-! PROOFS. What one instruction can do (spec/40_engine.md R97, R104): every execution is one of thirteen
effects (`Effect`). The rules about the whole machine, and the invariant that every step keeps, are case
splits over them. -/

namespace Sys2Proof.Machine

/-! ### The effects -/

/-- An instruction that combines the target cell with its operand (42_data_arith.md R111 to R115). -/
def Combines (i : Instr) : Prop :=
  ∃ op, i = .set op ∨ i = .add op ∨ i = .sub op ∨ i = .mul op ∨ i = .div op

/-- An instruction that writes the comparison flag (43_compare.md R125). -/
def Compares (i : Instr) : Prop :=
  ∃ op, i = .ceq op ∨ i = .gtn op ∨ i = .ltn op ∨ i = .gte op ∨ i = .lte op

/-- `i`, started in `s`, raises `e` (60_exceptions.md R142 to R149). -/
def Raises (s : State) (i : Instr) (e : RuntimeError) : Prop :=
  (∃ op, (i = .bne op ∨ i = .beq op ∨ i = .jmp op) ∧
    s.labelIndex (s.resolve op) = none ∧ e = .undeclaredLabel (s.resolve op)) ∨
  (i = .rtn ∧ s.callStack = [] ∧ e = .emptyCallStack) ∨
  (i = .cut ∧ 0xD800 ≤ (s.readCell (s.readCell 0xFFFE#16)).toNat ∧
    (s.readCell (s.readCell 0xFFFE#16)).toNat ≤ 0xDFFF ∧
    e = .invalidCharacter (s.readCell (s.readCell 0xFFFE#16))) ∨
  (∃ op, i = .div op ∧ s.resolve op = 0#16 ∧ e = .divisionByZero) ∨
  (∃ op, i = .jmp op ∧ s.labelIndex (s.resolve op) ≠ none ∧
    Config.callStackDepth = some s.callStack.length ∧ e = .callStackOverflow)

/-- What an instruction that starts in a state can leave: the state after it. -/
inductive Effect (s : State) : Instr → State → Prop where
  | emit {i : Instr} (x : OutToken) (h : i = .out ∨ i = .cut) :
      Effect s i ((s.emit x).setPc (s.pc + 1))
  | dump : Effect s .dmp ((s.emitDiag (.dump s.mem)).setPc (s.pc + 1))
  | take {c : Char} {rest : List Char} (h : s.input = c :: rest) :
      Effect s .cin (((s.inputTaken.writeCell s.ar (Config.cinStore c)).emit (.char c)).setPc
        (s.pc + 1))
  | wait (h : s.input = []) : Effect s .cin s
  | setAddress (op : Value) :
      Effect s (.sea op) ((s.writeCell Config.addrReg (s.resolve op)).setPc (s.pc + 1))
  | store {i : Instr} (v : Word) (h : Combines i) :
      Effect s i ((s.writeCell s.ar v).setPc (s.pc + 1))
  | compare {i : Instr} (holds : Bool) (h : Compares i) :
      Effect s i ((s.writeCell Config.flagCell (flagOf holds)).setPc (s.pc + 1))
  | fallThrough {i : Instr} (h : ∃ op, i = .lab op ∨ i = .bne op ∨ i = .beq op) :
      Effect s i (s.setPc (s.pc + 1))
  | branch {i : Instr} {op : Value} {t : Nat} (hi : i = .bne op ∨ i = .beq op)
      (h : s.labelIndex (s.resolve op) = some t) : Effect s i (s.setPc t)
  | call {op : Value} {t : Nat} (h : s.labelIndex (s.resolve op) = some t)
      (hdepth : Config.callStackDepth ≠ some s.callStack.length) :
      Effect s (.jmp op) ((s.push s.pc).setPc t)
  | ret {r : Nat} {rest : List Nat} (h : s.callStack = r :: rest) :
      Effect s .rtn (s.popped.setPc (r + 1))
  | halt (op : Value) : Effect s (.ext op) (s.halt (s.resolve op))
  | fault {i : Instr} {e : RuntimeError} (h : Raises s i e) : Effect s i (s.raise e)

/-- An instruction raises its error, and does nothing else. -/
theorem exec_of_raises {s : State} {i : Instr} {e : RuntimeError} (h : Raises s i e) :
    exec i s = .next (s.raise e) := by
  rcases h with ⟨op, hi, hnone, rfl⟩ | ⟨rfl, hstack, rfl⟩ | ⟨rfl, hlo, hhi, rfl⟩ |
    ⟨op, rfl, hzero, rfl⟩ | ⟨op, rfl, hdeclared, hdepth, rfl⟩
  · exact exec_of_undeclared hi hnone
  · exact exec_rtn_of_callStack_nil hstack
  · exact cutOfASurrogateFaults s hlo hhi
  · exact exec_div_of_eq_zero hzero
  · exact exec_jmp_of_full hdeclared hdepth

/-- The instruction answers a state that is one of its effects. -/
def HasEffect (s : State) (i : Instr) : Prop := ∃ t, exec i s = .next t ∧ Effect s i t

theorem hasEffect_of_raises {s : State} {i : Instr} {e : RuntimeError} (h : Raises s i e) :
    HasEffect s i := ⟨_, exec_of_raises h, .fault h⟩

theorem hasEffect_cut (s : State) : HasEffect s .cut := by
  cases h : isScalarValue s.targetValue with
  | true => exact ⟨_, exec_cut_of_isScalarValue h, .emit _ (.inr rfl)⟩
  | false =>
    obtain ⟨hlo, hhi⟩ := (isScalarValue_eq_false_iff _).mp h
    exact hasEffect_of_raises (.inr (.inr (.inl ⟨rfl, hlo, hhi, rfl⟩)))

theorem hasEffect_cin (s : State) : HasEffect s .cin := by
  cases h : s.input with
  | nil => exact ⟨_, exec_cin_of_input_nil h, .wait h⟩
  | cons c rest => exact ⟨_, exec_cin_of_input_cons h, .take h⟩

theorem hasEffect_rtn (s : State) : HasEffect s .rtn := by
  cases h : s.callStack with
  | nil => exact hasEffect_of_raises (.inr (.inl ⟨rfl, h, rfl⟩))
  | cons r rest => exact ⟨_, by simp only [exec_rtn, execRtn_eq, h], .ret h⟩

theorem hasEffect_div (s : State) (op : Value) : HasEffect s (.div op) := by
  by_cases h : s.resolve op = 0#16
  · exact hasEffect_of_raises (.inr (.inr (.inr (.inl ⟨op, rfl, h, rfl⟩))))
  · exact ⟨_, exec_div_of_ne_zero h, .store _ ⟨op, by simp⟩⟩

theorem hasEffect_branch {s : State} {i : Instr} {op : Value} (hi : i = .bne op ∨ i = .beq op)
    {taken : Bool} (hexec : exec i s = s.branchIf taken op) : HasEffect s i := by
  cases h : s.labelIndex (s.resolve op) with
  | none => exact hasEffect_of_raises (.inl ⟨op, by tauto, h, rfl⟩)
  | some t =>
    rw [State.branchIf_of_declared h] at hexec
    cases taken with
    | false => exact ⟨_, hexec, .fallThrough ⟨op, .inr hi⟩⟩
    | true => exact ⟨_, hexec, .branch hi h⟩

theorem hasEffect_jmp (s : State) (op : Value) : HasEffect s (.jmp op) := by
  cases h : s.labelIndex (s.resolve op) with
  | none => exact hasEffect_of_raises (.inl ⟨op, .inr (.inr rfl), h, rfl⟩)
  | some t =>
    by_cases hdepth : Config.callStackDepth = some s.callStack.length
    · exact hasEffect_of_raises
        (.inr (.inr (.inr (.inr ⟨op, rfl, by simp [h], hdepth, rfl⟩))))
    · exact ⟨_, exec_jmp_of_declared h hdepth, .call h hdepth⟩

/-- Every instruction answers, with one of its effects. -/
theorem hasEffect (s : State) : ∀ i : Instr, HasEffect s i
  | .out => ⟨_, exec_out s, .emit _ (.inl rfl)⟩
  | .cut => hasEffect_cut s
  | .cin => hasEffect_cin s
  | .dmp => ⟨_, exec_dmp s, .dump⟩
  | .rtn => hasEffect_rtn s
  | .sea op => ⟨_, exec_sea op s, .setAddress op⟩
  | .set op => ⟨_, exec_set op s, .store _ ⟨op, by simp⟩⟩
  | .add op => ⟨_, exec_add op s, .store _ ⟨op, by simp⟩⟩
  | .sub op => ⟨_, exec_sub op s, .store _ ⟨op, by simp⟩⟩
  | .mul op => ⟨_, exec_mul op s, .store _ ⟨op, by simp⟩⟩
  | .div op => hasEffect_div s op
  | .lab op => ⟨_, exec_lab op s, .fallThrough ⟨op, .inl rfl⟩⟩
  | .ceq op => ⟨_, exec_ceq op s, .compare _ ⟨op, by simp⟩⟩
  | .gtn op => ⟨_, exec_gtn op s, .compare _ ⟨op, by simp⟩⟩
  | .ltn op => ⟨_, exec_ltn op s, .compare _ ⟨op, by simp⟩⟩
  | .gte op => ⟨_, exec_gte op s, .compare _ ⟨op, by simp⟩⟩
  | .lte op => ⟨_, exec_lte op s, .compare _ ⟨op, by simp⟩⟩
  | .bne op => hasEffect_branch (.inl rfl) (exec_bne op s)
  | .beq op => hasEffect_branch (.inr rfl) (exec_beq op s)
  | .jmp op => hasEffect_jmp s op
  | .ext op => ⟨_, exec_ext op s, .halt op⟩

theorem effect_of_exec {s t : State} {i : Instr} (h : exec i s = .next t) : Effect s i t := by
  obtain ⟨u, hu, heffect⟩ := hasEffect s i
  cases hu.symm.trans h
  exact heffect

/-- Settles O22: of the cases of a step, all but an instruction name their next state, and an
instruction has an effect. -/
theorem everyStepAnswersANextState : Obligations.EveryStepAnswersANextState := by
  intro s
  rcases step_cases s with ⟨src, -, h⟩ | ⟨x, -, h⟩ | ⟨-, -, h⟩ | ⟨-, -, h⟩ | ⟨i, -, h⟩
  · exact ⟨_, h⟩
  · exact ⟨_, h⟩
  · exact ⟨_, h⟩
  · exact ⟨_, h⟩
  · obtain ⟨t, hexec, -⟩ := hasEffect s i
    exact ⟨t, h.trans hexec⟩

/-! ### How an instruction ends, and its errors (R97, R142 to R149) -/

/-- Settles O47, by the effect: the end it belongs to. -/
theorem everyInstructionEndsInOneOfSixWays : Obligations.EveryInstructionEndsInOneOfSixWays := by
  intro i s
  obtain ⟨t, hexec, heffect⟩ := hasEffect s i
  refine ⟨t, hexec, ?_⟩
  cases heffect with
  | emit | dump | take | setAddress | store | compare | fallThrough => exact .inl ⟨rfl, rfl⟩
  | branch hi h => exact .inr (.inl ⟨rfl, _, by tauto, h⟩)
  | call h => exact .inr (.inl ⟨rfl, _, .inr (.inr rfl), h⟩)
  | ret h => exact .inr (.inr (.inl ⟨rfl, rfl, _, _, h, rfl⟩))
  | halt op => exact .inr (.inr (.inr (.inl ⟨op, rfl, rfl⟩)))
  | fault => exact .inr (.inr (.inr (.inr (.inl ⟨_, rfl⟩))))
  | wait h => exact .inr (.inr (.inr (.inr (.inr ⟨rfl, h, rfl⟩))))

/-- From a running state only the fault effect leaves status Faulted. -/
theorem Effect.eq_raise_of_faulted {s t : State} {i : Instr} {e : RuntimeError} (h : Effect s i t)
    (hrunning : s.status = .running) (hfault : t.status = .faulted e) :
    t = s.raise e ∧ Raises s i e := by
  cases h with
  | fault hraises => cases hfault; exact ⟨rfl, hraises⟩
  | halt => cases hfault
  | emit | dump | take | wait | setAddress | store | compare | fallThrough | branch | call | ret =>
    cases hrunning.symm.trans hfault

/-- Settles O48: a fault is the fault effect. -/
theorem runtimeErrorsArePrecise : Obligations.RuntimeErrorsArePrecise := by
  intro i s t e hrunning hexec hfault
  obtain ⟨hraise, -⟩ := (effect_of_exec hexec).eq_raise_of_faulted hrunning hfault
  exact hraise

/-- Settles O49: the fault effect has one of the causes, and each cause has the fault effect. -/
theorem onlyTheNamedInstructionsRaiseErrors : Obligations.OnlyTheNamedInstructionsRaiseErrors := by
  intro i s t e hrunning hexec
  change t.status = .faulted e ↔ Raises s i e
  constructor
  · intro hfault
    obtain ⟨-, hraises⟩ := (effect_of_exec hexec).eq_raise_of_faulted hrunning hfault
    exact hraises
  · intro hraises
    cases hexec.symm.trans (exec_of_raises hraises)
    rfl

/-! ### The cells an instruction writes (R17, R30, R31, R45) -/

/-- Memory stays as it is, or gets one write: SEA's to the address register, a compare's to the flag, or
one to the target cell. -/
theorem Effect.mem_cases {s t : State} {i : Instr} (h : Effect s i t) :
    t.mem = s.mem ∨
    (∃ op, i = .sea op ∧ t.mem = Memory.write s.mem Config.addrReg (s.resolve op)) ∨
    (Compares i ∧ ∃ holds, t.mem = Memory.write s.mem Config.flagCell (flagOf holds)) ∨
    ((i = .cin ∨ Combines i) ∧ ∃ v, t.mem = Memory.write s.mem s.ar v) := by
  cases h with
  | setAddress op => exact .inr (.inl ⟨op, rfl, rfl⟩)
  | compare holds hi => exact .inr (.inr (.inl ⟨hi, holds, rfl⟩))
  | store v hi => exact .inr (.inr (.inr ⟨.inr hi, v, rfl⟩))
  | take => exact .inr (.inr (.inr ⟨.inl rfl, _, rfl⟩))
  | emit | dump | wait | fallThrough | branch | call | ret | halt | fault => exact .inl rfl

theorem readCell_eq_of_mem_eq {s t : State} (h : t.mem = s.mem) (a : Word) :
    t.readCell a = s.readCell a := by
  rw [State.readCell, h, State.readCell]

/-- A cell that one write changed is the written one. -/
theorem eq_of_write_of_ne {s t : State} {a b v : Word} (h : t.mem = Memory.write s.mem a v)
    (hne : t.readCell b ≠ s.readCell b) : b = a := by
  obtain ⟨-, hother⟩ := StoredOnly.of_mem h
  exact by_contra fun hb => hne (hother b hb)

/-- Settles O50: the write that changed cell 0xFFFE is SEA's or the target cell's, since a compare's is
to another cell. -/
theorem onlyWritersOfTheAddressRegister : Obligations.OnlyWritersOfTheAddressRegister := by
  intro i s t hexec hne
  rcases (effect_of_exec hexec).mem_cases with hmem | ⟨op, hi, -⟩ | ⟨-, holds, hmem⟩ | ⟨hi, v, hmem⟩
  · exact absurd (readCell_eq_of_mem_eq hmem _) hne
  · exact .inl ⟨op, hi⟩
  · exact absurd (eq_of_write_of_ne hmem hne) (by decide)
  · exact .inr ⟨(eq_of_write_of_ne hmem hne).symm, hi⟩

theorem flagOf_eq_zero_or_one (holds : Bool) : flagOf holds = 0#16 ∨ flagOf holds = 1#16 := by
  cases holds
  · exact .inl rfl
  · exact .inr rfl

/-- Settles O51: the write that changed cell 0xFFFD is a compare's or the target cell's, since SEA's is
to another cell. -/
theorem onlyWritersOfTheComparisonFlag : Obligations.OnlyWritersOfTheComparisonFlag := by
  intro i s t hexec hne
  rcases (effect_of_exec hexec).mem_cases with hmem | ⟨op, -, hmem⟩ | ⟨hi, holds, hmem⟩ | ⟨hi, v, hmem⟩
  · exact absurd (readCell_eq_of_mem_eq hmem _) hne
  · exact absurd (eq_of_write_of_ne hmem hne) (by decide)
  · have hflag : t.readCell 0xFFFD#16 = flagOf holds := (StoredOnly.of_mem hmem).1
    exact .inl ⟨hi, hflag ▸ flagOf_eq_zero_or_one holds⟩
  · exact .inr ⟨(eq_of_write_of_ne hmem hne).symm, hi⟩

theorem cellsWritten_of_compares {i : Instr} (h : Compares i) (s : State) :
    cellsWritten s i = [Config.flagCell] := by
  obtain ⟨op, rfl | rfl | rfl | rfl | rfl⟩ := h <;> rfl

theorem cellsWritten_of_combines {i : Instr} (h : Combines i) (s : State) :
    cellsWritten s i = [s.ar] := by
  obtain ⟨op, rfl | rfl | rfl | rfl | rfl⟩ := h <;> rfl

/-- Settles O52: the one write, if there is one, is to the one cell the table lists. -/
theorem instructionsWriteOnlyTheirCells : Obligations.InstructionsWriteOnlyTheirCells := by
  intro i s t hexec a ha
  by_contra hne
  refine ha ?_
  rcases (effect_of_exec hexec).mem_cases with hmem | ⟨op, rfl, hmem⟩ | ⟨hi, holds, hmem⟩ |
    ⟨rfl | hi, v, hmem⟩
  · exact absurd (readCell_eq_of_mem_eq hmem a) hne
  · exact List.mem_singleton.mpr (eq_of_write_of_ne hmem hne)
  · rw [cellsWritten_of_compares hi]
    exact List.mem_singleton.mpr (eq_of_write_of_ne hmem hne)
  · exact List.mem_singleton.mpr (eq_of_write_of_ne hmem hne)
  · rw [cellsWritten_of_combines hi]
    exact List.mem_singleton.mpr (eq_of_write_of_ne hmem hne)

/-! ### What no instruction changes, the call stack and the ports (R23, R26, R28, R33 to R35, R52) -/

theorem Effect.program_labels_loader {s t : State} {i : Instr} (h : Effect s i t) :
    t.program = s.program ∧ t.labels = s.labels ∧ t.loader = s.loader := by
  cases h <;> exact ⟨rfl, rfl, rfl⟩

/-- Settles O54: a step of a loaded run is no load, and no effect touches the Program. -/
theorem programAndLabelsAreReadOnly : Obligations.ProgramAndLabelsAreReadOnly := by
  intro s t hloaded hstep
  rcases step_cases s with ⟨src, hpending, -⟩ | ⟨x, hfailed, -⟩ | ⟨-, -, h⟩ | ⟨-, -, h⟩ | ⟨i, -, h⟩
  · cases hloaded.symm.trans hpending
  · cases hloaded.symm.trans hfailed
  · cases h.symm.trans hstep; exact ⟨rfl, rfl, hloaded⟩
  · cases h.symm.trans hstep; exact ⟨rfl, rfl, hloaded⟩
  · obtain ⟨hprogram, hlabels, hloader⟩ := (effect_of_exec (h.symm.trans hstep)).program_labels_loader
    exact ⟨hprogram, hlabels, hloader.trans hloaded⟩

/-- The call stack stays as it is, or it is a call's or a return's. -/
theorem Effect.callStack_cases {s t : State} {i : Instr} (h : Effect s i t) :
    t.callStack = s.callStack ∨
    ((∃ op, i = .jmp op) ∧ t.callStack = s.pc :: s.callStack ∧
      Config.callStackDepth ≠ some s.callStack.length) ∨
    (i = .rtn ∧ ∃ r, s.callStack = r :: t.callStack) := by
  cases h with
  | @call op t hlabel hdepth => exact .inr (.inl ⟨⟨op, rfl⟩, rfl, hdepth⟩)
  | @ret r rest hstack =>
    exact .inr (.inr ⟨rfl, r, by rw [State.setPc_callStack, State.popped_callStack, hstack]; rfl⟩)
  | emit | dump | take | wait | setAddress | store | compare | fallThrough | branch | halt | fault =>
    exact .inl rfl

/-- Settles O55: of the cases of the call stack, the changing ones. -/
theorem onlyJmpAndRtnMoveTheCallStack : Obligations.OnlyJmpAndRtnMoveTheCallStack := by
  intro i s t hexec hne
  rcases (effect_of_exec hexec).callStack_cases with hsame | ⟨hi, hpush, -⟩ | hpop
  · exact absurd hsame hne
  · exact .inl ⟨hi, hpush⟩
  · exact .inr hpop

/-- Settles O56, by the effect: only three of them have to do with a port. -/
theorem portsMoveOnlyByTheirInstructions : Obligations.PortsMoveOnlyByTheirInstructions := by
  intro i s t hexec
  cases effect_of_exec hexec with
  | emit x hi => exact ⟨.inr ⟨by tauto, x, rfl⟩, .inl rfl, .inl rfl⟩
  | dump => exact ⟨.inl rfl, .inr ⟨rfl, _, rfl⟩, .inl rfl⟩
  | @take c rest hinput =>
    have hrest : s.input = c :: s.input.tail := by rw [hinput, List.tail_cons]
    exact ⟨.inr ⟨.inr (.inr rfl), _, rfl⟩, .inl rfl, .inr ⟨rfl, c, hrest⟩⟩
  | wait | setAddress | store | compare | fallThrough | branch | call | ret | halt | fault =>
    exact ⟨.inl rfl, .inl rfl, .inl rfl⟩

/-! ### The invariant (R24, R26, R28, R29, R69) -/

theorem Effect.mem_wf {s t : State} {i : Instr} (h : Effect s i t) (hs : Memory.wf s.mem = true) :
    Memory.wf t.mem = true := by
  rcases h.mem_cases with hmem | ⟨op, -, hmem⟩ | ⟨-, holds, hmem⟩ | ⟨-, v, hmem⟩ <;> rw [hmem]
  · exact hs
  · exact Memory.wf_write hs ..
  · exact Memory.wf_write hs ..
  · exact Memory.wf_write hs ..

theorem Effect.diagnostic_cases {s t : State} {i : Instr} (h : Effect s i t) :
    t.diagnostic = s.diagnostic ∨ t.diagnostic = s.diagnostic ++ [.dump s.mem] := by
  cases h with
  | dump => exact .inr rfl
  | emit | take | wait | setAddress | store | compare | fallThrough | branch | call | ret | halt
  | fault => exact .inl rfl

/-- The pointer advances past the fetched instruction, stays there, or goes where a label or a caller
is. -/
theorem Effect.pc_cases {s t : State} {i : Instr} (h : Effect s i t) :
    t.pc = s.pc + 1 ∨ t.pc = s.pc ∨ (∃ k, s.labelIndex k = some t.pc) ∨
      (∃ r ∈ s.callStack, t.pc = r + 1) := by
  cases h with
  | emit | dump | take | setAddress | store | compare | fallThrough => exact .inl rfl
  | wait | halt | fault => exact .inr (.inl rfl)
  | branch _ hlabel | call hlabel => exact .inr (.inr (.inl ⟨_, hlabel⟩))
  | @ret r rest hstack => exact .inr (.inr (.inr ⟨r, by simp [hstack], rfl⟩))

/-- A label's index is inside the Program. -/
theorem State.Inv.labelIndex_lt {s : State} (hs : s.Inv) {k : Word} {j : Nat}
    (h : s.labelIndex k = some j) : j < s.program.length := by
  rw [State.labelIndex, hs.labels_eq, find_labelTable_eq_some_iff] at h
  exact h.lt_length

/-- A caller's index is inside the Program. -/
theorem State.Inv.caller_lt {s : State} (hs : s.Inv) {r : Nat} (h : r ∈ s.callStack) :
    r < s.program.length := by
  obtain ⟨op, hop⟩ := hs.calls_jump r h
  exact (List.getElem?_eq_some_iff.mp hop).1

theorem State.Inv.pc_le_of_effect {s t : State} {i : Instr} (hs : s.Inv)
    (hfetch : s.program[s.pc]? = some i) (h : Effect s i t) : t.pc ≤ s.program.length := by
  have hpc : s.pc < s.program.length := (List.getElem?_eq_some_iff.mp hfetch).1
  rcases h.pc_cases with hnext | hstay | ⟨k, hlabel⟩ | ⟨r, hr, hret⟩
  · omega
  · omega
  · exact (hs.labelIndex_lt hlabel).le
  · have hlt := hs.caller_lt hr
    omega

/-- Every entry of the stack is a Jump's index: a call pushes the index of the JMP that was fetched. -/
theorem State.Inv.calls_jump_of_effect {s t : State} {i : Instr} (hs : s.Inv)
    (hfetch : s.program[s.pc]? = some i) (h : Effect s i t) :
    ∀ r ∈ t.callStack, ∃ op, s.program[r]? = some (.jmp op) := by
  rcases h.callStack_cases with hsame | ⟨⟨op, rfl⟩, hpush, -⟩ | ⟨-, r, hpop⟩
  · rw [hsame]
    exact hs.calls_jump
  · rw [hpush]
    exact List.forall_mem_cons.mpr ⟨⟨op, hfetch⟩, hs.calls_jump⟩
  · exact fun q hq => hs.calls_jump q (by rw [hpop]; exact List.mem_cons_of_mem r hq)

theorem State.Inv.depth_le_of_effect {s t : State} {i : Instr} (hs : s.Inv) (h : Effect s i t) :
    ∀ d, Config.callStackDepth = some d → t.callStack.length ≤ d := by
  intro d hd
  have hle := hs.depth_le d hd
  rcases h.callStack_cases with hsame | ⟨-, hpush, hdepth⟩ | ⟨-, r, hpop⟩
  · rwa [hsame]
  · have hne : d ≠ s.callStack.length := fun heq => hdepth (heq ▸ hd)
    rw [hpush, List.length_cons]
    omega
  · rw [hpop, List.length_cons] at hle
    omega

theorem State.Inv.dumps_wf_of_effect {s t : State} {i : Instr} (hs : s.Inv) (h : Effect s i t) :
    ∀ m, DiagToken.dump m ∈ t.diagnostic → Memory.wf m = true := by
  intro m hm
  rcases h.diagnostic_cases with hsame | hdump
  · exact hs.dumps_wf m (hsame ▸ hm)
  · rw [hdump, List.mem_append, List.mem_singleton, DiagToken.dump.injEq] at hm
    rcases hm with hm | rfl
    · exact hs.dumps_wf m hm
    · exact hs.mem_wf

/-- An instruction keeps the invariant, clause by clause. -/
theorem State.Inv.of_effect {s t : State} {i : Instr} (hs : s.Inv)
    (hfetch : s.program[s.pc]? = some i) (h : Effect s i t) : t.Inv := by
  obtain ⟨hprogram, hlabels, -⟩ := h.program_labels_loader
  exact {
    mem_wf := h.mem_wf hs.mem_wf
    pc_le := hprogram ▸ hs.pc_le_of_effect hfetch h
    labels_eq := by rw [hlabels, hprogram, hs.labels_eq]
    calls_jump := hprogram ▸ hs.calls_jump_of_effect hfetch h
    depth_le := hs.depth_le_of_effect h
    fits := hprogram ▸ hs.fits
    dumps_wf := hs.dumps_wf_of_effect h }

/-- The start of a run meets the invariant when the Program fits. -/
theorem State.Inv.of_start {p : Program} (hfits : p.length ≤ Config.programCapacity)
    (input : List Char) : State.Inv { State.start p with input := input } where
  mem_wf := Memory.wf_nil
  pc_le := Nat.zero_le _
  labels_eq := rfl
  calls_jump := nofun
  depth_le := fun d _ => Nat.zero_le d
  fits := hfits
  dumps_wf := nofun

/-- Settles O23: reset is the start of the empty Program's run. -/
theorem resetMeetsTheInvariant : Obligations.ResetMeetsTheInvariant :=
  .of_start (p := []) (Nat.zero_le _) []

/-- No clause of the invariant speaks of the status or the load phase. -/
theorem State.Inv.of_status_loader {s : State} (hs : s.Inv) (st : Status) (l : Loader) :
    State.Inv { s with status := st, loader := l } :=
  ⟨hs.mem_wf, hs.pc_le, hs.labels_eq, hs.calls_jump, hs.depth_le, hs.fits, hs.dumps_wf⟩

theorem State.Inv.load {s : State} (hs : s.Inv) (src : Source) : (s.load src).Inv := by
  rcases s.load_cases src with ⟨x, -, hload⟩ | ⟨p, hp, hload⟩ <;> rw [hload]
  · exact hs.of_status_loader s.status _
  · obtain ⟨-, hfits⟩ := loadProgram_fits hp
    exact .of_start hfits s.input

/-- Settles O24: a load starts a run or changes the load phase, the end of the Program changes the
status, and an instruction is one of its effects. -/
theorem stepKeepsTheInvariant : Obligations.StepKeepsTheInvariant := by
  intro s t hs hstep
  rcases step_cases s with ⟨src, -, h⟩ | ⟨x, -, h⟩ | ⟨-, -, h⟩ | ⟨-, -, h⟩ | ⟨i, ⟨-, hfetch⟩, h⟩
  · cases h.symm.trans hstep; exact hs.load src
  · cases h.symm.trans hstep; exact hs
  · cases h.symm.trans hstep; exact hs
  · cases h.symm.trans hstep; exact hs.of_status_loader _ s.loader
  · exact hs.of_effect hfetch (effect_of_exec (h.symm.trans hstep))

end Sys2Proof.Machine
end

section
/-! PROOFS. The cells an instruction reads (spec/20_memory.md R45): run in a memory that agrees on them,
it does the same. An instruction either leaves both memories alone or makes the same one write in both
(`SameEffect`), since what it computes from the cells it reads is the same. -/

namespace Sys2Proof.Machine

/-- `t` and `u`, reached from `s` and from `s` with memory `m`, differ in memory only, and each cell
holds the same in both or was left alone in both. -/
def SameEffect (s : State) (m : Memory) (t u : State) : Prop :=
  u = { t with mem := u.mem } ∧
    ∀ a : Word, u.readCell a = t.readCell a ∨
      (u.readCell a = Memory.read m a ∧ t.readCell a = s.readCell a)

/-- `i` has the same effect in `s` and in `s` with memory `m`. -/
def RunsAlike (s : State) (m : Memory) (i : Instr) : Prop :=
  ∃ t u, exec i s = .next t ∧ exec i { s with mem := m } = .next u ∧ SameEffect s m t u

theorem sameEffect_of_kept {s t : State} (h : t.mem = s.mem) (m : Memory) :
    SameEffect s m t { t with mem := m } :=
  ⟨rfl, fun a => .inr ⟨rfl, readCell_eq_of_mem_eq h a⟩⟩

theorem sameEffect_of_write {s t : State} {a v : Word} (h : t.mem = Memory.write s.mem a v)
    (m : Memory) : SameEffect s m t { t with mem := Memory.write m a v } := by
  refine ⟨rfl, fun b => ?_⟩
  obtain ⟨hsame, hother⟩ := StoredOnly.of_mem h
  by_cases hb : b = a
  · subst hb
    exact .inl ((Memory.read_write_same m b v).trans hsame.symm)
  · exact .inr ⟨Memory.read_write_other m hb v, hother b hb⟩

/-! ### What is computed from the cells read -/

section
variable {s : State} {m : Memory}

/-- The two memories agree on the listed cells. -/
def AgreeOn (s : State) (m : Memory) (cells : List Word) : Prop :=
  ∀ a ∈ cells, Memory.read m a = s.readCell a

theorem AgreeOn.mono {cells cells' : List Word} (h : AgreeOn s m cells) (hsub : cells' ⊆ cells) :
    AgreeOn s m cells' := fun a ha => h a (hsub ha)

theorem AgreeOn.resolve_eq {op : Value} (h : AgreeOn s m (operandRead op)) :
    State.resolve { s with mem := m } op = s.resolve op := by
  cases op with
  | literal k => rfl
  | address a => exact h a (List.mem_singleton_self a)

theorem AgreeOn.ar_eq (h : AgreeOn s m [Config.addrReg]) : State.ar { s with mem := m } = s.ar :=
  h _ (List.mem_singleton_self _)

theorem AgreeOn.flag_eq (h : AgreeOn s m [Config.flagCell]) :
    State.flag { s with mem := m } = s.flag :=
  h _ (List.mem_singleton_self _)

/-- The target cell is found through the address register, so both are read. -/
theorem AgreeOn.targetValue_eq (h : AgreeOn s m [Config.addrReg, s.ar]) :
    State.targetValue { s with mem := m } = s.targetValue := by
  have har : State.ar { s with mem := m } = s.ar := (h.mono (by simp)).ar_eq
  rw [State.targetValue, har, State.targetValue]
  exact h s.ar (by simp)

/-! ### Two shapes: one write, and memory left alone -/

theorem runsAlike_of_write {i : Instr} {a v : Word}
    (h : exec i s = .next ((s.writeCell a v).setPc (s.pc + 1)))
    (h' : exec i { s with mem := m } =
      .next ((State.writeCell { s with mem := m } a v).setPc (s.pc + 1))) : RunsAlike s m i :=
  ⟨_, _, h, h', sameEffect_of_write (t := (s.writeCell a v).setPc (s.pc + 1)) rfl m⟩

theorem runsAlike_of_kept {i : Instr} {t : State} (h : exec i s = .next t) (hmem : t.mem = s.mem)
    (h' : exec i { s with mem := m } = .next { t with mem := m }) : RunsAlike s m i :=
  ⟨_, _, h, h', sameEffect_of_kept hmem m⟩

/-! ### The instructions, by the cells they read -/

theorem runsAlike_out (h : AgreeOn s m [Config.addrReg, s.ar]) : RunsAlike s m .out := by
  refine runsAlike_of_kept (exec_out s) rfl ?_
  rw [exec_out, h.targetValue_eq]
  rfl

theorem runsAlike_cut (h : AgreeOn s m [Config.addrReg, s.ar]) : RunsAlike s m .cut := by
  have htarget := h.targetValue_eq
  cases hscalar : isScalarValue s.targetValue with
  | true =>
    refine runsAlike_of_kept (exec_cut_of_isScalarValue hscalar) rfl ?_
    rw [exec_cut_of_isScalarValue (by rw [htarget, hscalar]), htarget]
    rfl
  | false =>
    refine runsAlike_of_kept (exec_cut_of_surrogate hscalar) rfl ?_
    rw [exec_cut_of_surrogate (by rw [htarget, hscalar]), htarget]
    rfl

theorem runsAlike_cin (h : AgreeOn s m [Config.addrReg]) : RunsAlike s m .cin := by
  cases hinput : s.input with
  | nil => exact runsAlike_of_kept (exec_cin_of_input_nil hinput) rfl (exec_cin_of_input_nil hinput)
  | cons c rest =>
    have hcin' := exec_cin_of_input_cons (s := { s with mem := m }) hinput
    rw [h.ar_eq] at hcin'
    exact ⟨_, _, exec_cin_of_input_cons hinput, hcin', sameEffect_of_write rfl m⟩

theorem runsAlike_rtn : RunsAlike s m .rtn := by
  cases hstack : s.callStack with
  | nil =>
    exact runsAlike_of_kept (exec_rtn_of_callStack_nil hstack) rfl (exec_rtn_of_callStack_nil hstack)
  | cons r rest =>
    exact runsAlike_of_kept (exec_rtn_of_callStack_cons hstack) rfl
      (exec_rtn_of_callStack_cons hstack)

theorem runsAlike_sea {op : Value} (h : AgreeOn s m (operandRead op)) : RunsAlike s m (.sea op) := by
  refine runsAlike_of_write (exec_sea op s) ?_
  rw [exec_sea, h.resolve_eq]
  rfl

theorem runsAlike_set {op : Value} (h : AgreeOn s m (Config.addrReg :: operandRead op)) :
    RunsAlike s m (.set op) := by
  refine runsAlike_of_write (exec_set op s) ?_
  rw [exec_set, State.combineTarget_eq, (h.mono (by simp)).resolve_eq, (h.mono (by simp)).ar_eq]

theorem runsAlike_combine {i : Instr} {op : Value} {f : Word → Word → Word}
    (h : AgreeOn s m (Config.addrReg :: s.ar :: operandRead op))
    (hexec : exec i s = s.combineTarget f op)
    (hexec' : exec i { s with mem := m } = State.combineTarget { s with mem := m } f op) :
    RunsAlike s m i := by
  refine runsAlike_of_write hexec ?_
  rw [hexec', State.combineTarget, (h.mono (by simp)).resolve_eq, (h.mono (by simp)).targetValue_eq,
    State.writeTarget, (h.mono (by simp)).ar_eq]
  rfl

theorem runsAlike_div {op : Value} (h : AgreeOn s m (Config.addrReg :: s.ar :: operandRead op)) :
    RunsAlike s m (.div op) := by
  have hop : State.resolve { s with mem := m } op = s.resolve op := (h.mono (by simp)).resolve_eq
  by_cases hzero : s.resolve op = 0#16
  · exact runsAlike_of_kept (exec_div_of_eq_zero hzero) rfl (exec_div_of_eq_zero (hop.trans hzero))
  · exact runsAlike_combine h (exec_div_of_ne_zero hzero) (exec_div_of_ne_zero (hop ▸ hzero))

theorem runsAlike_compare {i : Instr} {op : Value} {pred : Word → Word → Bool}
    (h : AgreeOn s m (Config.addrReg :: s.ar :: operandRead op))
    (hexec : ∀ u, exec i u = u.compareTarget pred op) : RunsAlike s m i := by
  refine runsAlike_of_write (hexec s) ?_
  rw [hexec, State.compareTarget, (h.mono (by simp)).resolve_eq, (h.mono (by simp)).targetValue_eq]
  rfl

/-- A label operand names the same label, so a branch that is taken alike goes the same way. -/
theorem runsAlike_branch {i : Instr} {op : Value} {taken : Bool}
    (h : AgreeOn s m (operandRead op)) (hexec : exec i s = s.branchIf taken op)
    (hexec' : exec i { s with mem := m } = State.branchIf { s with mem := m } taken op) :
    RunsAlike s m i := by
  rw [State.branchIf_eq] at hexec hexec'
  rw [h.resolve_eq, State.labelIndex] at hexec'
  rw [State.labelIndex] at hexec
  cases hlabel : Table.find (s.resolve op).toNat s.labels with
  | none =>
    simp only [hlabel] at hexec hexec'
    exact runsAlike_of_kept hexec rfl hexec'
  | some t =>
    simp only [hlabel] at hexec hexec'
    exact runsAlike_of_kept hexec rfl hexec'

theorem runsAlike_bne {op : Value} (h : AgreeOn s m (Config.flagCell :: operandRead op)) :
    RunsAlike s m (.bne op) := by
  refine runsAlike_branch (h.mono (by simp)) (exec_bne op s) ?_
  rw [exec_bne, State.flagClear, (h.mono (by simp)).flag_eq]
  rfl

theorem runsAlike_beq {op : Value} (h : AgreeOn s m (Config.flagCell :: operandRead op)) :
    RunsAlike s m (.beq op) := by
  refine runsAlike_branch (h.mono (by simp)) (exec_beq op s) ?_
  rw [exec_beq, State.flagSet, (h.mono (by simp)).flag_eq]
  rfl

theorem runsAlike_jmp {op : Value} (h : AgreeOn s m (operandRead op)) : RunsAlike s m (.jmp op) := by
  have hop := h.resolve_eq
  have hlabel : State.labelIndex { s with mem := m } (State.resolve { s with mem := m } op) =
      s.labelIndex (s.resolve op) := by rw [hop]; rfl
  cases ht : s.labelIndex (s.resolve op) with
  | none =>
    have hjmp' := exec_of_undeclared (.inr (.inr rfl)) (hlabel.trans ht)
    rw [hop] at hjmp'
    exact runsAlike_of_kept (exec_of_undeclared (.inr (.inr rfl)) ht) rfl hjmp'
  | some t =>
    by_cases hdepth : Config.callStackDepth = some s.callStack.length
    · have hdeclared : s.labelIndex (s.resolve op) ≠ none := by simp [ht]
      exact runsAlike_of_kept (exec_jmp_of_full hdeclared hdepth) rfl
        (exec_jmp_of_full (hlabel ▸ hdeclared) hdepth)
    · exact runsAlike_of_kept (exec_jmp_of_declared ht hdepth) rfl
        (exec_jmp_of_declared (hlabel.trans ht) hdepth)

theorem runsAlike_ext {op : Value} (h : AgreeOn s m (operandRead op)) : RunsAlike s m (.ext op) := by
  refine runsAlike_of_kept (exec_ext op s) rfl ?_
  rw [exec_ext, h.resolve_eq]
  rfl

/-- Every instruction but DMP, in a memory that agrees on the cells the table lists for it. -/
theorem runsAlike (i : Instr) (hi : i ≠ .dmp) (h : AgreeOn s m (cellsRead s i)) :
    RunsAlike s m i := by
  cases i with
  | out => exact runsAlike_out h
  | cut => exact runsAlike_cut h
  | cin => exact runsAlike_cin h
  | dmp => exact absurd rfl hi
  | rtn => exact runsAlike_rtn
  | sea op => exact runsAlike_sea h
  | set op => exact runsAlike_set h
  | add op => exact runsAlike_combine h (exec_add op s) (exec_add op _)
  | sub op => exact runsAlike_combine h (exec_sub op s) (exec_sub op _)
  | mul op => exact runsAlike_combine h (exec_mul op s) (exec_mul op _)
  | div op => exact runsAlike_div h
  | lab op => exact runsAlike_of_kept (exec_lab op s) rfl (exec_lab op _)
  | ceq op => exact runsAlike_compare h (exec_ceq op)
  | gtn op => exact runsAlike_compare h (exec_gtn op)
  | ltn op => exact runsAlike_compare h (exec_ltn op)
  | gte op => exact runsAlike_compare h (exec_gte op)
  | lte op => exact runsAlike_compare h (exec_lte op)
  | bne op => exact runsAlike_bne h
  | beq op => exact runsAlike_beq h
  | jmp op => exact runsAlike_jmp h
  | ext op => exact runsAlike_ext h

end

/-- Settles O53: the two executions have the same effect. -/
theorem instructionsReadOnlyTheirCells : Obligations.InstructionsReadOnlyTheirCells := by
  intro i s t m hi hagree hexec
  obtain ⟨t', u, ht, hu, heffect⟩ := runsAlike i hi hagree
  cases hexec.symm.trans ht
  exact ⟨u, hu, heffect⟩

end Sys2Proof.Machine
end

section
/-! PROOFS. Runs of a few steps (spec/70_reset_and_hazards.md R166 to R172): an instruction that writes
one cell leaves a state about to run the next one, which reads the cell as written; a call that returns;
an unanswered wait. -/

namespace Sys2Proof.Machine

/-! ### Runs -/

theorem run_succ {s t : State} (h : step s = .next t) (k : Nat) :
    Sys2Proof.core.run (k + 1) s = Sys2Proof.core.run k t := by
  have hstep : Sys2Proof.core.step s = .next t := h
  simp only [Host.Core.run, hstep]

theorem run_one (s : State) : Sys2Proof.core.run 1 s = step s := by
  obtain ⟨t, ht⟩ := everyStepAnswersANextState s
  rw [run_succ ht 0, ht]
  rfl

/-! ### An instruction that stores into one cell and goes on -/

/-- In `t` cell `a` holds `w`, and the run goes on at the next instruction of the same Program. -/
structure StoresAndGoesOn (s t : State) (a w : Word) : Prop where
  stored : StoredOnly s t a w
  pc : t.pc = s.pc + 1
  program : t.program = s.program
  labels : t.labels = s.labels
  status : t.status = s.status
  loader : t.loader = s.loader

theorem StoresAndGoesOn.of_sameButMemPc {s t : State} {a w : Word} (hstored : StoredOnly s t a w)
    (hpc : t.pc = s.pc + 1) (h : SameButMemPc s t) : StoresAndGoesOn s t a w := by
  obtain ⟨hprogram, hlabels, -, hstatus, -, -, -, hloader⟩ := h
  exact ⟨hstored, hpc, hprogram, hlabels, hstatus, hloader⟩

theorem exec_sea_storesAndGoesOn (s : State) (op : Value) :
    ∃ t, exec (.sea op) s = .next t ∧ StoresAndGoesOn s t 0xFFFE#16 (s.resolve op) := by
  obtain ⟨-, hsea⟩ := seaStoresIntoTheAddressRegister
  obtain ⟨t, hexec, hstored, hpc, hsame⟩ := hsea op s
  exact ⟨t, hexec, .of_sameButMemPc hstored hpc hsame⟩

/-- SET, ADD, SUB, MUL, DIV and CIN store into the target cell the value that `StoresIntoTarget` names:
the one their own statements give. -/
theorem StoresIntoTarget.exec_eq {s : State} {i : Instr} {w : Word} (h : StoresIntoTarget s i w) :
    ∃ t, exec i s = .next t ∧ StoresAndGoesOn s t (s.readCell 0xFFFE#16) w := by
  rcases h with ⟨op, rfl, rfl⟩ | ⟨op, rfl, hw⟩ | ⟨op, rfl, hw⟩ | ⟨op, rfl, hw⟩ | ⟨op, rfl, hne, hw⟩ |
    ⟨rfl, c, rest, hinput, rfl⟩
  · obtain ⟨-, hset⟩ := setOverwritesTheTargetCell
    obtain ⟨t, hexec, hstored, hpc, hsame⟩ := hset op s
    exact ⟨t, hexec, .of_sameButMemPc hstored hpc hsame⟩
  · obtain ⟨-, hadd⟩ := addStoresTheSumModulo65536
    obtain ⟨t, r, hexec, hr, hstored, hpc, hsame⟩ := hadd op s
    cases BitVec.eq_of_toNat_eq (hr.trans hw.symm)
    exact ⟨t, hexec, .of_sameButMemPc hstored hpc hsame⟩
  · obtain ⟨-, hsub⟩ := subStoresTheDifferenceModulo65536
    obtain ⟨t, r, hexec, hr, hstored, hpc, hsame⟩ := hsub op s
    cases BitVec.eq_of_toNat_eq (Int.ofNat_inj.mp (hr.trans hw.symm))
    exact ⟨t, hexec, .of_sameButMemPc hstored hpc hsame⟩
  · obtain ⟨-, hmul⟩ := mulStoresTheProductModulo65536
    obtain ⟨t, r, hexec, hr, hstored, hpc, hsame⟩ := hmul op s
    cases BitVec.eq_of_toNat_eq (hr.trans hw.symm)
    exact ⟨t, hexec, .of_sameButMemPc hstored hpc hsame⟩
  · obtain ⟨-, hdiv, -⟩ := divStoresTheQuotientOrFaults
    obtain ⟨t, r, hexec, hr, hstored, hpc, hsame⟩ := hdiv op s hne
    cases BitVec.eq_of_toNat_eq (hr.trans hw.symm)
    exact ⟨t, hexec, .of_sameButMemPc hstored hpc hsame⟩
  · obtain ⟨-, -, hcin⟩ := cinStoresAndEchoesTheCharacter
    obtain ⟨t, hexec, hstored, -, -, hpc, hprogram, hlabels, -, hstatus, -, hloader⟩ :=
      hcin s c rest hinput
    exact ⟨t, hexec, hstored, hpc, hprogram, hlabels, hstatus, hloader⟩

/-- A compare stores into cell 0xFFFD the value that `ComparesTo` names. -/
theorem ComparesTo.exec_eq {s : State} {i : Instr} {w : Word} (h : ComparesTo s i w) :
    ∃ t, exec i s = .next t ∧ StoresAndGoesOn s t 0xFFFD#16 w := by
  have hcompare {pred : Word → Word → Bool} {op : Value}
      (hexec : exec i s = s.compareTarget pred op)
      (hw : w = flagOf (pred (s.readCell (s.readCell 0xFFFE#16)) (s.resolve op))) :
      ∃ t, exec i s = .next t ∧ StoresAndGoesOn s t 0xFFFD#16 w := by
    obtain ⟨t, ht, hstored, hpc, hsame⟩ := s.compareTarget_stores pred op
    exact ⟨t, hexec.trans ht, .of_sameButMemPc (hw ▸ hstored) hpc hsame⟩
  rcases h with ⟨op, rfl, hw⟩ | ⟨op, rfl, hw⟩ | ⟨op, rfl, hw⟩ | ⟨op, rfl, hw⟩ | ⟨op, rfl, hw⟩
  · exact hcompare (exec_ceq op s) (hw.trans (flagOf_decide _).symm)
  · exact hcompare (exec_gtn op s) (hw.trans (flagOf_decide _).symm)
  · exact hcompare (exec_ltn op s) (hw.trans (flagOf_decide _).symm)
  · exact hcompare (exec_gte op s) (hw.trans (flagOf_decide _).symm)
  · exact hcompare (exec_lte op s) (hw.trans (flagOf_decide _).symm)

/-- The step of such an instruction, and the next one run in the state it leaves (R166, R167). -/
theorem run_two_of_storesAndGoesOn {s u : State} {i j : Instr} {a w : Word} (hs : s.executing)
    (hi : s.program[s.pc]? = some i) (hj : s.program[s.pc + 1]? = some j)
    (hexec : exec i s = .next u) (h : StoresAndGoesOn s u a w) :
    step s = .next u ∧ Sys2Proof.core.run 2 s = exec j u := by
  have hstep : step s = .next u := (step_of_runsAt ⟨hs, hi⟩).trans hexec
  obtain ⟨hloaded, hrunning⟩ := hs
  have hnext : u.runsAt j :=
    ⟨⟨h.loader.trans hloaded, h.status.trans hrunning⟩, by rw [h.program, h.pc, hj]⟩
  exact ⟨hstep, by rw [run_succ hstep, run_one, step_of_runsAt hnext]⟩

/-! ### The next instruction and the address register (R166) -/

/-- Whatever the instruction, its target cell is the one that cell 0xFFFE names. -/
theorem usesTarget_addressRegister (u : State) (j : Instr) :
    UsesTarget u (u.readCell 0xFFFE#16) j := by
  cases j with
  | out => exact outEmitsTheTargetCell.2 u
  | cut =>
    obtain ⟨-, hcut⟩ := cutEmitsACharacter
    exact ⟨fun ⟨hlo, hhi⟩ => cutOfASurrogateFaults u hlo hhi, hcut u⟩
  | cin =>
    intro c rest hinput
    obtain ⟨-, -, hcin⟩ := cinStoresAndEchoesTheCharacter
    obtain ⟨t, hexec, hstored, -⟩ := hcin u c rest hinput
    exact ⟨t, hexec, hstored⟩
  | set op =>
    obtain ⟨t, hexec, hstored, -⟩ := setOverwritesTheTargetCell.2 op u
    exact ⟨t, hexec, hstored⟩
  | add op =>
    obtain ⟨t, r, hexec, hr, hstored, -⟩ := addStoresTheSumModulo65536.2 op u
    exact ⟨t, r, hexec, hstored, hr⟩
  | sub op =>
    obtain ⟨t, r, hexec, hr, hstored, -⟩ := subStoresTheDifferenceModulo65536.2 op u
    exact ⟨t, r, hexec, hstored, hr⟩
  | mul op =>
    obtain ⟨t, r, hexec, hr, hstored, -⟩ := mulStoresTheProductModulo65536.2 op u
    exact ⟨t, r, hexec, hstored, hr⟩
  | div op =>
    intro hne
    obtain ⟨-, hdiv, -⟩ := divStoresTheQuotientOrFaults
    obtain ⟨t, r, hexec, hr, hstored, -⟩ := hdiv op u hne
    exact ⟨t, r, hexec, hstored, hr⟩
  | ceq op =>
    obtain ⟨t, hexec, hstored, -⟩ := ceqSetsTheFlagOnEquality.2 op u
    exact ⟨t, hexec, hstored⟩
  | gtn op =>
    obtain ⟨-, -, -, -, horder⟩ := orderComparesSetTheFlagUnsigned
    obtain ⟨⟨t, hexec, hstored, -⟩, -⟩ := horder op u
    exact ⟨t, hexec, hstored⟩
  | ltn op =>
    obtain ⟨-, -, -, -, horder⟩ := orderComparesSetTheFlagUnsigned
    obtain ⟨-, ⟨t, hexec, hstored, -⟩, -⟩ := horder op u
    exact ⟨t, hexec, hstored⟩
  | gte op =>
    obtain ⟨-, -, -, -, horder⟩ := orderComparesSetTheFlagUnsigned
    obtain ⟨-, -, ⟨t, hexec, hstored, -⟩, -⟩ := horder op u
    exact ⟨t, hexec, hstored⟩
  | lte op =>
    obtain ⟨-, -, -, -, horder⟩ := orderComparesSetTheFlagUnsigned
    obtain ⟨-, -, -, ⟨t, hexec, hstored, -⟩⟩ := horder op u
    exact ⟨t, hexec, hstored⟩
  | dmp | rtn | sea | lab | bne | beq | jmp | ext => exact True.intro

/-- Settles O57: the write leaves cell 0xFFFE with the value, and the next instruction's target cell is
the one that cell names. -/
theorem seaTakesEffectAtTheNextInstruction : Obligations.SeaTakesEffectAtTheNextInstruction := by
  intro s i j w hs hi hj hwrite
  obtain ⟨u, hexec, hgoes⟩ : ∃ u, exec i s = .next u ∧ StoresAndGoesOn s u 0xFFFE#16 w := by
    rcases hwrite with ⟨op, rfl, rfl⟩ | ⟨har, hstore⟩
    · exact exec_sea_storesAndGoesOn s op
    · exact har ▸ hstore.exec_eq
  obtain ⟨hstep, hrun⟩ := run_two_of_storesAndGoesOn hs hi hj hexec hgoes
  obtain ⟨hread, -⟩ := hgoes.stored
  exact ⟨u, hstep, hgoes.stored, hgoes.pc, hrun, hread, hread ▸ usesTarget_addressRegister u j⟩

/-! ### The next instruction and the comparison flag (R167) -/

/-- A label operand that names the written cell reads the value written. -/
theorem StoredOnly.resolve_eq {s u : State} {a w key : Word} {op : Value} (h : StoredOnly s u a w)
    (hop : op = .literal key ∨ ∃ b, op = .address b ∧ key = if b = a then w else s.readCell b) :
    u.resolve op = key := by
  obtain ⟨hsame, hother⟩ := h
  rcases hop with rfl | ⟨b, rfl, rfl⟩
  · rfl
  · rw [State.resolve_address]
    split
    · next hb => rw [hb, hsame]
    · next hb => exact hother b hb

/-- Settles O58: the write leaves the flag with the value, and the next branch tests cell 0xFFFD. -/
theorem compareThenBranchUsesTheResult : Obligations.CompareThenBranchUsesTheResult := by
  intro s i j w hs hi hj hwrite
  obtain ⟨u, hexec, hgoes⟩ : ∃ u, exec i s = .next u ∧ StoresAndGoesOn s u 0xFFFD#16 w := by
    rcases hwrite with hcompare | ⟨har, hstore⟩
    · exact hcompare.exec_eq
    · exact har ▸ hstore.exec_eq
  obtain ⟨hstep, hrun⟩ := run_two_of_storesAndGoesOn hs hi hj hexec hgoes
  obtain ⟨hflag, -⟩ := hgoes.stored
  refine ⟨u, hstep, hgoes.stored, hgoes.pc, hrun, fun op key t hop hkey => ?_⟩
  have hlabel : u.labelIndex (u.resolve op) = some t := by
    rw [hgoes.stored.resolve_eq hop, State.labelIndex, hgoes.labels]
    exact hkey
  have hpc : u.pc + 1 = s.pc + 2 := by rw [hgoes.pc]
  constructor
  · rintro rfl
    rw [hrun, bneBranchesOnFlagZero.2 op u t hlabel, hflag, hpc]
    rfl
  · rintro rfl
    rw [hrun, beqBranchesOnFlagOne.2 op u t hlabel, hflag, hpc]
    rfl

/-! ### A call that returns at once (R168) -/

/-- Settles O59: JMP pushes its index, LAB goes on, and RTN takes that index off again. -/
theorem callAndReturnResumeAfterTheJump : Obligations.CallAndReturnResumeAfterTheJump := by
  intro s op lop j hs hjmp hlabel hlab hrtn hdepth
  have hcall : step s = .next ((s.push s.pc).setPc j) :=
    (step_of_runsAt ⟨hs, hjmp⟩).trans (exec_jmp_of_declared hlabel hdepth)
  have hbody : step ((s.push s.pc).setPc j) = .next ((s.push s.pc).setPc (j + 1)) :=
    step_of_runsAt (s := (s.push s.pc).setPc j) ⟨hs, hlab⟩
  have hreturn : step ((s.push s.pc).setPc (j + 1)) = .next { s with pc := s.pc + 1 } :=
    (step_of_runsAt (s := (s.push s.pc).setPc (j + 1)) ⟨hs, hrtn⟩).trans
      (exec_rtn_of_callStack_cons (s := (s.push s.pc).setPc (j + 1)) rfl)
  exact (run_succ hcall 2).trans <| (run_succ hbody 1).trans <| (run_one _).trans hreturn

/-! ### A wait that is never answered (R98, R159, R172) -/

theorem State.waiting.run_eq {s : State} (h : s.waiting) (k : Nat) :
    Sys2Proof.core.run k s = .next s := by
  induction k with
  | zero => rfl
  | succ k ih => rw [run_succ h.step_eq, ih]

/-- Settles O60, by induction on the number of steps; the state it stays in is an executing one. -/
theorem unansweredWaitNeverEnds : Obligations.UnansweredWaitNeverEnds := by
  refine fun s hwait k => ⟨hwait.run_eq k, ?_⟩
  rintro ⟨t, hrun, hended⟩
  cases (hwait.run_eq k).symm.trans hrun
  obtain ⟨⟨hexec, -⟩, -⟩ := hwait
  exact State.not_ended_of_executing hexec hended

end Sys2Proof.Machine
end
